-- ==== Sys2Proof/Word.lean ====
section
/-! DEFINITION. The word types of the usb_fan codec block (00_scope.md R8: every value is an
unsigned integer, a byte has 8 bits; 30_encoding.md R70: a command word has 32; 42_message.md R120:
a packed Column has 16). -/

namespace Sys2Proof

/-- A byte, 0..255 (00_scope.md R8). -/
abbrev Byte := BitVec 8

/-- A packed Column, or the operand h of format H (42_message.md R120, 30_encoding.md R71). -/
abbrev Half := BitVec 16

/-- A command word, RES, or a register as RD reads it (30_encoding.md R70, 10_state.md R22, R31). -/
abbrev Word := BitVec 32

end Sys2Proof
end

