-- ==== Sys2Proof/Syntax.lean ====
section
/-! DEFINITION. The commands: one constructor of `Instr` per row of the opcode map (30_encoding.md
R73), its arguments the fields of the row's operand format (R71). -/

namespace Sys2Proof

/-- The three colour flags R, G and Bl of formats F and CP (30_encoding.md R71). -/
structure Colour where
  /-- R, C[11]: red. -/
  r : Bool
  /-- G, C[12]: green. -/
  g : Bool
  /-- Bl, C[13]: blue. -/
  bl : Bool
deriving DecidableEq, Repr

/-- The twenty commands, in the order of the opcode map (30_encoding.md R73). -/
inductive Instr where
  /-- NOP (R160). -/
  | nop
  /-- RD sel (R161). -/
  | rd (sel : BitVec 4)
  /-- CLRERR (R162). -/
  | clrerr
  /-- WB_WR a, b (R163). -/
  | wbWr (a : BitVec 13) (b : Byte)
  /-- WB_RD a (R164). -/
  | wbRd (a : BitVec 13)
  /-- WB_SETLEN n (R165). -/
  | wbSetlen (n : BitVec 14)
  /-- XF b (R101). -/
  | xf (b : Byte)
  /-- XFB (R102). -/
  | xfb
  /-- GLD i, b (R112). -/
  | gld (i : BitVec 3) (b : Byte)
  /-- GLYPH flags (R113). -/
  | glyph (flags : Colour)
  /-- COL_PACK flags, P (R122). -/
  | colPack (flags : Colour) (p : BitVec 11)
  /-- COL_UNPACK h (R123). -/
  | colUnpack (h : Half)
  /-- COL_APP flags, P (R124). -/
  | colApp (flags : Colour) (p : BitVec 11)
  /-- MSG_CLR (R125). -/
  | msgClr
  /-- MSG_EMIT (R128). -/
  | msgEmit
  /-- CK_CLR (R142). -/
  | ckClr
  /-- CK_PUSH b (R143). -/
  | ckPush (b : Byte)
  /-- CK_FIN (R144). -/
  | ckFin
  /-- PK_INIT h (R149). -/
  | pkInit (h : Half)
  /-- PK_FRAME (R150). -/
  | pkFrame
deriving DecidableEq, Repr

end Sys2Proof
end

