-- ==== Sys2Proof/Decode.lean ====
section
/-! DEFINITION. The decoder, total on every 32-bit word and rejecting by name, and after it the
encoder (30_encoding.md R70 to R76). Both are written from the operand formats of R71 and the
opcode map of R73. -/

namespace Sys2Proof

/-- Why a word spells no command (30_encoding.md R72). Either way the block raises IllegalCommand;
the decoder's caller does that (Machine/Port.lean). -/
inductive DecodeError where
  /-- The opcode byte is in no row of R73 (R74: 236 of the 256 values). -/
  | undefinedOpcode (op : Byte)
  /-- The opcode is in the map, but a bit its format does not name is 1 (R72). -/
  | reservedBit (op : Byte)
deriving DecidableEq, Repr

/-- One row of the opcode map (30_encoding.md R73). -/
structure Row where
  /-- The mnemonic as the table spells it. -/
  mnemonic : String
  /-- The column `match`. -/
  value : Word
  /-- The column `mask`. -/
  mask : Word
  /-- The command with its fields taken from the word (R71, R75). -/
  build : Word → Instr

/-- OP = C[31:24] (R70). -/
def opcodeField (c : Word) : Byte := c.extractLsb' 24 8

/-- b = C[7:0], formats B, AB and GI (R71). -/
def fieldB (c : Word) : Byte := c.extractLsb' 0 8

/-- sel = C[3:0], format S. -/
def fieldSel (c : Word) : BitVec 4 := c.extractLsb' 0 4

/-- a = C[20:8], format AB. -/
def fieldAHigh (c : Word) : BitVec 13 := c.extractLsb' 8 13

/-- a = C[12:0], format A. -/
def fieldALow (c : Word) : BitVec 13 := c.extractLsb' 0 13

/-- n = C[13:0], format N. -/
def fieldN (c : Word) : BitVec 14 := c.extractLsb' 0 14

/-- i = C[10:8], format GI. -/
def fieldI (c : Word) : BitVec 3 := c.extractLsb' 8 3

/-- R = C[11], G = C[12], Bl = C[13], formats F and CP. -/
def fieldFlags (c : Word) : Colour := ⟨c.getLsbD 11, c.getLsbD 12, c.getLsbD 13⟩

/-- P = C[10:0], format CP. -/
def fieldP (c : Word) : BitVec 11 := c.extractLsb' 0 11

/-- h = C[15:0], format H. -/
def fieldH (c : Word) : Half := c.extractLsb' 0 16

/-- The opcode map (30_encoding.md R73), row by row. -/
def opcodeMap : List Row := [
  ⟨"NOP",        0x00000000, 0xFFFFFFFF, fun _ => .nop⟩,
  ⟨"RD",         0x01000000, 0xFFFFFFF0, fun c => .rd (fieldSel c)⟩,
  ⟨"CLRERR",     0x02000000, 0xFFFFFFFF, fun _ => .clrerr⟩,
  ⟨"WB_WR",      0x03000000, 0xFFE00000, fun c => .wbWr (fieldAHigh c) (fieldB c)⟩,
  ⟨"WB_RD",      0x04000000, 0xFFFFE000, fun c => .wbRd (fieldALow c)⟩,
  ⟨"WB_SETLEN",  0x05000000, 0xFFFFC000, fun c => .wbSetlen (fieldN c)⟩,
  ⟨"XF",         0x10000000, 0xFFFFFF00, fun c => .xf (fieldB c)⟩,
  ⟨"XFB",        0x11000000, 0xFFFFFFFF, fun _ => .xfb⟩,
  ⟨"GLD",        0x20000000, 0xFFFFF800, fun c => .gld (fieldI c) (fieldB c)⟩,
  ⟨"GLYPH",      0x21000000, 0xFFFFC7FF, fun c => .glyph (fieldFlags c)⟩,
  ⟨"COL_PACK",   0x30000000, 0xFFFFC000, fun c => .colPack (fieldFlags c) (fieldP c)⟩,
  ⟨"COL_UNPACK", 0x31000000, 0xFFFF0000, fun c => .colUnpack (fieldH c)⟩,
  ⟨"COL_APP",    0x32000000, 0xFFFFC000, fun c => .colApp (fieldFlags c) (fieldP c)⟩,
  ⟨"MSG_CLR",    0x33000000, 0xFFFFFFFF, fun _ => .msgClr⟩,
  ⟨"MSG_EMIT",   0x34000000, 0xFFFFFFFF, fun _ => .msgEmit⟩,
  ⟨"CK_CLR",     0x40000000, 0xFFFFFFFF, fun _ => .ckClr⟩,
  ⟨"CK_PUSH",    0x41000000, 0xFFFFFF00, fun c => .ckPush (fieldB c)⟩,
  ⟨"CK_FIN",     0x42000000, 0xFFFFFFFF, fun _ => .ckFin⟩,
  ⟨"PK_INIT",    0x43000000, 0xFFFF0000, fun c => .pkInit (fieldH c)⟩,
  ⟨"PK_FRAME",   0x44000000, 0xFFFFFFFF, fun _ => .pkFrame⟩ ]

/-- A word is the command in a row if and only if (C & mask) = match (R73). -/
def Row.accepts (r : Row) (c : Word) : Bool := c &&& r.mask == r.value

/-- The decoder: the row that accepts the word, or the name of what is wrong with it (R72, R73). -/
def decode (c : Word) : Except DecodeError Instr :=
  match opcodeMap.find? (fun r => r.accepts c) with
  | some r => .ok (r.build c)
  | none =>
    if opcodeMap.any (fun r => opcodeField r.value == opcodeField c) then
      .error (.reservedBit (opcodeField c))
    else
      .error (.undefinedOpcode (opcodeField c))

/-- The instruction the decoder reads from a table word: bit 0 of `w` is C[0], and the word's bits
from `nbits` up are 0. The command word arrives whole on a 32-bit port, so no byte order applies
(20_memory.md R52); a number that does not fit the port is no command word. -/
def decodeTableWord (nbits w : Nat) : Option Instr :=
  if w % 2 ^ nbits < 2 ^ 32 then
    match decode (BitVec.ofNat 32 (w % 2 ^ nbits)) with
    | .ok i => some i
    | .error _ => none
  else none

/-- The opcode byte C[31:24] of each command (R73, column OP). -/
def Instr.opcode : Instr → Byte
  | .nop => 0x00
  | .rd _ => 0x01
  | .clrerr => 0x02
  | .wbWr _ _ => 0x03
  | .wbRd _ => 0x04
  | .wbSetlen _ => 0x05
  | .xf _ => 0x10
  | .xfb => 0x11
  | .gld _ _ => 0x20
  | .glyph _ => 0x21
  | .colPack _ _ => 0x30
  | .colUnpack _ => 0x31
  | .colApp _ _ => 0x32
  | .msgClr => 0x33
  | .msgEmit => 0x34
  | .ckClr => 0x40
  | .ckPush _ => 0x41
  | .ckFin => 0x42
  | .pkInit _ => 0x43
  | .pkFrame => 0x44

/-- `00BGR`: the three flags at C[13:11] (R71). -/
def Colour.bits (f : Colour) : BitVec 3 :=
  BitVec.ofBool f.bl ++ BitVec.ofBool f.g ++ BitVec.ofBool f.r

/-- The operand bits C[23:0] of each command, by the bit patterns of R71; reserved bits are 0. -/
def Instr.operandBits : Instr → BitVec 24
  | .nop => 0#24
  | .rd sel => 0#20 ++ sel
  | .clrerr => 0#24
  | .wbWr a b => 0#3 ++ a ++ b
  | .wbRd a => 0#11 ++ a
  | .wbSetlen n => 0#10 ++ n
  | .xf b => 0#16 ++ b
  | .xfb => 0#24
  | .gld i b => 0#13 ++ i ++ b
  | .glyph f => 0#10 ++ f.bits ++ 0#11
  | .colPack f p => 0#10 ++ f.bits ++ p
  | .colUnpack h => 0#8 ++ h
  | .colApp f p => 0#10 ++ f.bits ++ p
  | .msgClr => 0#24
  | .msgEmit => 0#24
  | .ckClr => 0#24
  | .ckPush b => 0#16 ++ b
  | .ckFin => 0#24
  | .pkInit h => 0#8 ++ h
  | .pkFrame => 0#24

/-- The encoder: the opcode, then the operand bits (R70, R71). -/
def encode (i : Instr) : Word := i.opcode ++ i.operandBits

end Sys2Proof
end

