-- ==== Sys2Proof/Config.lean ====
section
/-! DEFINITION. What an implementation fixes (00_scope.md R7) and the free values: the values the
spec leaves open, as constants without a body, of which no proof can see a value. -/

namespace Sys2Proof.Config

/-- COL_CAP, the capacity of the column buffer in column words (00_scope.md R7). -/
def colCap : Nat := 4091

/-- WB_CAP, the capacity of the wire buffer in bytes (00_scope.md R7). -/
def wbCap : Nat := 8192

/-- How many stages XF has beyond the first: XF_STAGES is an OPEN parameter, at least 1
(00_scope.md R7, 93_implementation_defined.md I8; log entry 8). -/
opaque extraStages : Nat

/-- XF_STAGES ≥ 1, the depth of the XF pipeline (00_scope.md R7). No command's effect depends on it
(10_state.md R32). -/
def xfStages : Nat := extraStages + 1

/-- FREE VALUE. The byte that the k-th draw of a run gives where a command reads a WB byte that no
command has written since reset (10_state.md R28, 93_implementation_defined.md I1; log entry 2). -/
opaque wbDraw : Nat → Byte

/-- FREE VALUE. The k-th draw where `rst` rises during an emitting command: taken modulo one more
than the number of packets, it is how many of them PKT_OUT keeps (70_reset_and_hazards.md R201,
93_implementation_defined.md I10; log entry 4). -/
opaque prefixDraw : Nat → Nat

/-- FREE VALUE. What CB[k] holds while no command has written it (10_state.md R27,
93_implementation_defined.md I2). No state of a run reads it (log entry 9). -/
opaque cbUnspecified : Nat → Half

/-- FREE VALUE. mag(s) for an s outside 0 < s < 0x2000, where 43_packet.md R145 leaves it undefined.
No command reads it (log entry 10). -/
opaque magOutside : Nat → Nat

end Sys2Proof.Config
end

