-- ==== Sys2Proof/Machine/State.lean ====
section
/-! DEFINITION. The block's state as plain data (10_state.md R34), its value after reset (R35), the
port events that wait for it, and the reasons a step can stop. -/

namespace Sys2Proof.Machine

/-- A storage array as the cells that have been written: (index, value) pairs. An index with no
pair has not been written since reset, the `none` of 10_state.md R34. -/
abbrev Store (α : Type) := List (Nat × α)

/-- The wire buffer's cells, (address, byte) pairs. -/
abbrev Memory := List Host.Cell

/-- Seven payload bytes (00_scope.md R6, PAYLOAD_LEN). -/
abbrev Payload := Vector Byte 7

/-- Eight packet bytes, payload then checksum (43_packet.md R141). -/
abbrev Packet := Vector Byte 8

/-- The causes of an error (60_exceptions.md R180). -/
inductive ErrorKind where
  /-- Code 1: a payload length invariant is broken. -/
  | protocolError
  /-- Code 2: a data size is not in 0 < size < 0x2000. -/
  | sizeOutOfRange
  /-- Code 3: the word spells no command, or a field value is illegal. -/
  | illegalCommand
  /-- Code 4: the Message has no room. -/
  | columnOverflow
deriving DecidableEq, Repr

/-- What reaches the block from outside, one thing at a time (10_state.md R33; log entries 1, 5
and 6). -/
inductive PortEvent where
  /-- The host issues a command word and the block accepts it (10_state.md R21, R33). -/
  | command (w : Word)
  /-- `rst` is asserted between two commands (70_reset_and_hazards.md R200). -/
  | reset
  /-- The host issues a command word, and `rst` rises while it executes (R201). -/
  | resetDuring (w : Word)
  /-- An agent other than the host issues a command word (20_memory.md R62). -/
  | otherAgent (w : Word)
deriving DecidableEq, Repr

/-- The faults of the machine: NONE. An error is a next state with STATUS updated, and the block
accepts the next command (60_exceptions.md R182, R184); every address a command can form is backed
by storage (20_memory.md R50). Nothing raises a fault; that is safe (log entry 11). -/
inductive Fault
deriving DecidableEq, Repr

/-- The refusals of the machine. -/
inductive Refusal where
  /-- Raised by an arm of `exec` whose instruction has no meaning yet; safe. No arm answers it. -/
  | notModelled (mnemonic : String)
  /-- Raised by `step` when an agent other than the one host issues a command: "a model refuses any
  configuration" of that kind (60_exceptions.md R191, 93_implementation_defined.md I5). Safe: no
  claim is made of such a system (log entry 6). -/
  | secondHost
deriving DecidableEq, Repr

/-- The block's state: the record of 10_state.md R34, then the model's own two fields. -/
structure State where
  /-- RES, the result register (R22). -/
  res : Word
  /-- STATUS.ECODE, STATUS[3:0] (R23). -/
  ecode : BitVec 4
  /-- STATUS.EOP, STATUS[15:8] (R23). -/
  eop : Byte
  /-- ACC, the running sum (R25). -/
  acc : Byte
  /-- CNT, the number of payload bytes pushed (R25). -/
  cnt : BitVec 3
  /-- PBUF[0..6] (R25). -/
  pbuf : Payload
  /-- GR0..GR7, the glyph row registers (R26). -/
  gr : Vector Byte 8
  /-- CB_CNT, 0..COL_CAP (R27). -/
  cbCnt : Fin (Config.colCap + 1)
  /-- CB, the written entries of the column buffer (R27). -/
  cb : Store Half
  /-- WB_LEN, 0..WB_CAP (R28). -/
  wbLen : Fin (Config.wbCap + 1)
  /-- WB, the written bytes of the wire buffer (R28). -/
  wb : Memory
  /-- PKT_OUT, the packets emitted so far, oldest first (R29). -/
  pktOut : List Packet
  /-- MODEL'S OWN (log entry 1): what the block's ports still receive, oldest first. -/
  inputs : List PortEvent
  /-- MODEL'S OWN (log entry 2): how many free values have been drawn. -/
  draws : Nat
deriving DecidableEq, Repr

/-- The state after reset at power-up, which is also the start of every run (10_state.md R35,
70_reset_and_hazards.md R200, R209). The two last fields are the model's own: no event waits, and
nothing has been drawn (DESIGN CHOICE, log entries 1 and 2). -/
def State.reset : State where
  res := 0
  ecode := 0
  eop := 0
  acc := 0
  cnt := 0
  pbuf := Vector.replicate 7 0
  gr := Vector.replicate 8 0
  cbCnt := 0
  cb := []
  wbLen := 0
  wb := []
  pktOut := []
  inputs := []
  draws := 0

/-- What one command answers. -/
abbrev Answer := Host.Outcome State Fault Refusal

end Sys2Proof.Machine
end

