-- ==== Sys2Proof/Machine/Flags.lean ====
section
/-! DEFINITION. The error codes, the STATUS word and the one flag EF (10_state.md R23, R24;
60_exceptions.md R180). -/

namespace Sys2Proof.Machine

/-- The code of an error, as ECODE records it (60_exceptions.md R180). -/
def ErrorKind.code : ErrorKind → BitVec 4
  | .protocolError => 1
  | .sizeOutOfRange => 2
  | .illegalCommand => 3
  | .columnOverflow => 4

/-- STATUS: EOP at [15:8], ECODE at [3:0], every other bit 0 (10_state.md R23). -/
def State.statusWord (s : State) : Word := 0#16 ++ s.eop ++ 0#4 ++ s.ecode

/-- EF, driven on `err`: ECODE ≠ 0 (10_state.md R24, 60_exceptions.md R188). -/
def State.ef (s : State) : Bool := s.ecode != 0

/-- CKSTAT: CNT at [10:8], ACC at [7:0], every other bit 0 (10_state.md R31). -/
def State.ckstatWord (s : State) : Word := 0#21 ++ s.cnt ++ s.acc

end Sys2Proof.Machine
end

