-- ==== Sys2Proof/Machine/Params.lean ====
section
/-! DEFINITION. The fixed geometry and constants of the block (00_scope.md R6), each as the source
writes it: its literals are unaudited and normative as written (93_implementation_defined.md I11;
log entry 13). -/

namespace Sys2Proof.Machine

/-- ROWS: pixel rows of a Column (R6). -/
def rows : Nat := 11

/-- GLYPH_ROWS (R6). -/
def glyphRows : Nat := 8

/-- GLYPH_COLS (R6). -/
def glyphCols : Nat := 8

/-- PAD_TOP: blank rows above a glyph (R6). -/
def padTop : Nat := 2

/-- PAD_BOTTOM: blank rows below a glyph (R6). -/
def padBottom : Nat := 1

/-- HDR_LEN (R6). -/
def hdrLen : Nat := 8

/-- PAYLOAD_LEN (R6). -/
def payloadLen : Nat := 7

/-- PACKET_LEN (R6). -/
def packetLen : Nat := 8

/-- CHUNK_LEN: wire bytes in one data packet (R6). -/
def chunkLen : Nat := 5

/-- SIZE_LIMIT: a data size must be below it (R6). -/
def sizeLimit : Nat := 0x2000

/-- XF_CONST (R6). -/
def xfConst : Nat := 0x1A4

/-- PAD_BYTE (R6). -/
def padByte : Byte := 0xA4

end Sys2Proof.Machine
end

