-- ==== Sys2Proof/Machine/Ops.lean ====
section
/-! DEFINITION. The named operations over the state that the meanings share: storage, the error
capture and its clearing, byte orders, checksums and emission. -/

namespace Sys2Proof.Machine

/-! ### Byte order (00_scope.md R9, 20_memory.md R51) -/

/-- le16(v) = [v mod 256, v div 256], low byte first (00_scope.md R9). -/
def le16 (v : Nat) : List Byte := [BitVec.ofNat 8 (v % 256), BitVec.ofNat 8 (v / 256)]

/-- be16(w) = [w[15:8], w[7:0]], high byte first (00_scope.md R9). -/
def be16 (w : Half) : List Byte := [w.extractLsb' 8 8, w.extractLsb' 0 8]

/-! ### Storage (10_state.md R27, R28; 20_memory.md R50, R60) -/

/-- What an index with no cell reads as: no value; the entry has not been written since reset
(10_state.md R34, log entry 3). -/
def Store.unlisted {α : Type} : Option α := none

/-- One entry of a storage array, `none` where nothing has been written since reset. -/
def Store.read {α : Type} (a : Nat) : Store α → Option α
  | [] => Store.unlisted
  | (k, v) :: rest => if a = k then some v else Store.read a rest

/-- Write one entry, keeping the indices strictly rising. A written value never equals what an
unlisted index reads as, so no write removes a cell. -/
def Store.write {α : Type} (a : Nat) (x : α) : Store α → Store α
  | [] => [(a, x)]
  | (k, v) :: rest =>
    if a < k then (a, x) :: (k, v) :: rest
    else if a = k then (a, x) :: rest
    else (k, v) :: Store.write a x rest

/-- Write the values one after another from index `a` up. -/
def Store.writeBlock {α : Type} (a : Nat) : List α → Store α → Store α
  | [], m => m
  | x :: xs, m => Store.writeBlock (a + 1) xs (Store.write a x m)

/-- The canonical form of a storage array of `cap` entries: indices strictly rising, all below
`cap`. No cell can equal what an unlisted index reads as, since that is no value. -/
abbrev Store.wf {α : Type} (cap : Nat) (m : Store α) : Prop :=
  m.Pairwise (fun x y => x.1 < y.1) ∧ ∀ x ∈ m, x.1 < cap

/-- The canonical form of the wire buffer (20_memory.md R50: addresses 0..8191). -/
abbrev Memory.wf (m : Memory) : Prop := Store.wf Config.wbCap m

/-- MemRead(a, 1) without the draw: WB[a], `none` where no command has written it since reset. -/
def Memory.read (m : Memory) (a : Nat) : Option Byte := Store.read a m

/-- MemWrite(a, 1, b): WB[a] <- b (00_scope.md R9). -/
def Memory.write (m : Memory) (a : Nat) (b : Byte) : Memory := Store.write a b m

/-- One free value has been drawn. -/
def State.drew (s : State) : State := { s with draws := s.draws + 1 }

/-- WB[a] <- b in the state. -/
def State.writeWB (a : Nat) (b : Byte) (s : State) : State :=
  { s with wb := Memory.write s.wb a b }

/-- MemRead(a, 1): the byte a command reads from WB[a], and the state after the read. A byte that no
command has written since reset is a draw, independent at each read (10_state.md R28). -/
def State.readWB (a : Nat) (s : State) : Byte × State :=
  match Memory.read s.wb a with
  | some b => (b, s)
  | none => (Config.wbDraw s.draws, s.drew)

/-- Read `n` bytes from WB[a] up, in increasing address order. -/
def State.readBlock (a : Nat) : Nat → State → List Byte × State
  | 0, s => ([], s)
  | n + 1, s =>
    ((s.readWB a).1 :: (State.readBlock (a + 1) n (s.readWB a).2).1,
      (State.readBlock (a + 1) n (s.readWB a).2).2)

/-- CB[k]. Below CB_CNT it is always an entry that a command wrote (10_state.md R27); the value of an
entry never written is left free (log entry 9). -/
def State.column (k : Nat) (s : State) : Half := (Store.read k s.cb).getD (Config.cbUnspecified k)

/-- Append column words to the Message, all or none: `none` where they do not fit COL_CAP
(42_message.md R124, 41_glyph.md R113). -/
def State.appendColumns (ws : List Half) (s : State) : Option State :=
  if h : s.cbCnt.val + ws.length ≤ Config.colCap then
    some { s with
      cb := Store.writeBlock s.cbCnt.val ws s.cb
      cbCnt := ⟨s.cbCnt.val + ws.length, Nat.lt_succ_of_le h⟩ }
  else none

/-! ### Results -/

/-- RES <- v (10_state.md R22). -/
def State.setRes (v : Word) (s : State) : State := { s with res := v }

/-- STATUS.ECODE and STATUS.EOP (10_state.md R23). -/
def State.setStatus (e : BitVec 4) (op : Byte) (s : State) : State := { s with ecode := e, eop := op }

/-! ### Errors (60_exceptions.md R182): the block's only exceptions -/

/-- `raise E(info)` in a command with opcode byte `op`: STATUS records the first error since the last
reset or CLRERR, and nothing else changes (60_exceptions.md R182, R186). -/
def State.raise (e : ErrorKind) (op : Byte) (s : State) : State :=
  if s.ecode = 0 then s.setStatus e.code op else s

/-- Clearing the captured error: ECODE <- 0, EOP <- 0 (44_control.md R162, 60_exceptions.md R185). -/
def State.clearError (s : State) : State := s.setStatus 0 0

/-- A command that fails ends here; the block goes on with the next command (R182). -/
def fail (e : ErrorKind) (op : Byte) (s : State) : Answer := .next (s.raise e op)

/-! ### Packets (43_packet.md R140, R141) -/

/-- The sum of bytes mod 256. -/
def sumBytes (bs : List Byte) : Byte := bs.foldr (· + ·) 0

/-- checksum(p): the sum of the seven payload bytes mod 256 (43_packet.md R140). -/
def checksum (p : Payload) : Byte := sumBytes p.toList

/-- pkt = p ++ [checksum(p)] (43_packet.md R141). -/
def packetOf (p : Payload) : Packet := p.push (checksum p)

/-- emit(pkt): append one packet to PKT_OUT (00_scope.md R9, 10_state.md R29). -/
def State.emit (pkt : Packet) (s : State) : State := { s with pktOut := s.pktOut ++ [pkt] }

/-- PBUF[0..6] <- p and emit(p ++ [checksum(p)]) (43_packet.md R149, R150). -/
def State.emitPayload (p : Payload) (s : State) : State :=
  { s with pbuf := p, pktOut := s.pktOut ++ [packetOf p] }

/-- The payloads one after another; PBUF ends as the last of them (43_packet.md R150). -/
def State.emitPayloads : List Payload → State → State
  | [], s => s
  | p :: ps, s => State.emitPayloads ps (s.emitPayload p)

/-- A packet on the 64-bit pkt_data port: packet byte i on bits [8i+7:8i] (20_memory.md R52). -/
def pktData (p : Packet) : BitVec 64 :=
  p[7] ++ p[6] ++ p[5] ++ p[4] ++ p[3] ++ p[2] ++ p[1] ++ p[0]

end Sys2Proof.Machine
end

