-- ==== Sys2Proof/Machine/Operands.lean ====
section
/-! DEFINITION. The operand forms beyond plain fields: a Column packed and unpacked (42_message.md
R120, R121) and the register map that RD selects from (10_state.md R31). -/

namespace Sys2Proof.Machine

/-- pack(R, G, Bl, P) = G, Bl, R, two zeros, P[10:0], high bit first: pixel k at bit k
(42_message.md R120, 90_conflicts.md C2). -/
def pack (f : Colour) (p : BitVec 11) : Half :=
  BitVec.ofBool f.g ++ BitVec.ofBool f.bl ++ BitVec.ofBool f.r ++ 0#2 ++ p

/-- unpack(w), in the operand layout of format CP: Bl = w[14], G = w[15], R = w[13], P = w[10:0];
w[12:11] are ignored (42_message.md R121). -/
def unpack (w : Half) : BitVec 14 :=
  w.extractLsb' 14 1 ++ w.extractLsb' 15 1 ++ w.extractLsb' 13 1 ++ w.extractLsb' 0 11

/-- The operand value of format CP, C[13:0] (30_encoding.md R71). -/
def cpValue (f : Colour) (p : BitVec 11) : BitVec 14 :=
  BitVec.ofBool f.bl ++ BitVec.ofBool f.g ++ BitVec.ofBool f.r ++ p

/-- CAPS: WB_CAP at [29:16], COL_CAP at [12:0] (10_state.md R30). -/
def caps : Word := 0#2 ++ BitVec.ofNat 14 Config.wbCap ++ 0#3 ++ BitVec.ofNat 13 Config.colCap

/-- GR(4j + i) at bits [8i+7:8i], j = 0 (10_state.md R31, 20_memory.md R52). -/
def State.grLo (s : State) : Word := s.gr[3] ++ s.gr[2] ++ s.gr[1] ++ s.gr[0]

/-- GR(4j + i) at bits [8i+7:8i], j = 1. -/
def State.grHi (s : State) : Word := s.gr[7] ++ s.gr[6] ++ s.gr[5] ++ s.gr[4]

/-- REG(sel): the register map of 10_state.md R31; `none` for the reserved selectors 7..15. -/
def State.register (sel : BitVec 4) (s : State) : Option Word :=
  match sel.toNat with
  | 0 => some s.statusWord
  | 1 => some s.ckstatWord
  | 2 => some (BitVec.ofNat 32 s.cbCnt.val)
  | 3 => some (BitVec.ofNat 32 s.wbLen.val)
  | 4 => some s.grLo
  | 5 => some s.grHi
  | 6 => some caps
  | _ => none

end Sys2Proof.Machine
end

