-- ==== Sys2Proof/Machine/Control.lean ====
section
/-! DEFINITION. The control family: NOP, RD, CLRERR, WB_WR, WB_RD, WB_SETLEN (44_control.md). -/

namespace Sys2Proof.Machine

/-- NOP: no state changes (R160). -/
def execNop (s : State) : Answer := .next s

/-- RD sel: RES <- REG(sel); sel 7..15 raises IllegalCommand (R161). -/
def execRd (sel : BitVec 4) (s : State) : Answer :=
  match s.register sel with
  | some v => .next (s.setRes v)
  | none => fail .illegalCommand (Instr.rd sel).opcode s

/-- CLRERR: ECODE <- 0, EOP <- 0 (R162). -/
def execClrerr (s : State) : Answer := .next s.clearError

/-- WB_WR a, b: WB[a] <- b (R163). -/
def execWbWr (a : BitVec 13) (b : Byte) (s : State) : Answer := .next (s.writeWB a.toNat b)

/-- WB_RD a: RES <- zext_32(WB[a]), a draw where WB[a] was never written (R164). -/
def execWbRd (a : BitVec 13) (s : State) : Answer :=
  .next ((s.readWB a.toNat).2.setRes ((s.readWB a.toNat).1.setWidth 32))

/-- WB_SETLEN n: WB_LEN <- n; n > 8192 raises IllegalCommand (R165). -/
def execWbSetlen (n : BitVec 14) (s : State) : Answer :=
  if h : n.toNat ≤ Config.wbCap then
    .next { s with wbLen := ⟨n.toNat, Nat.lt_succ_of_le h⟩ }
  else fail .illegalCommand (Instr.wbSetlen n).opcode s

end Sys2Proof.Machine
end

