-- ==== Sys2Proof/Machine/Glyph.lean ====
section
/-! DEFINITION. The glyph family: GLD and GLYPH (41_glyph.md). -/

namespace Sys2Proof.Machine

/-- Glyph pixel (row r, column c) is lit iff GR[r][7 − c] = 1 (41_glyph.md R110). -/
def glyphPixel (gr : Vector Byte 8) (r c : Nat) : Bool := (gr.toList.getD r 0).getLsbD (7 - c)

/-- P_c: two blank rows, the glyph's eight rows, one blank row (41_glyph.md R111). -/
def columnPixel (gr : Vector Byte 8) (c k : Nat) : Bool :=
  decide (padTop ≤ k) && decide (k < padTop + glyphRows) && glyphPixel gr (k - padTop) c

/-- The pixel vector P_c as a field: pixel k at bit k. -/
def columnPixels (gr : Vector Byte 8) (c : Nat) : BitVec 11 :=
  BitVec.ofFnLE fun k : Fin 11 => columnPixel gr c k.val

/-- G(GR, R, G, Bl): the eight column words, left to right (41_glyph.md R111). -/
def glyphWords (gr : Vector Byte 8) (f : Colour) : List Half :=
  (List.range glyphCols).map fun c => pack f (columnPixels gr c)

/-- GLD i, b: GR[i] <- b (R112). -/
def execGld (i : BitVec 3) (b : Byte) (s : State) : Answer :=
  .next { s with gr := s.gr.set i.toNat b i.isLt }

/-- GLYPH flags: append the staged glyph's eight Columns, or raise ColumnOverflow and append none
(R113). -/
def execGlyph (flags : Colour) (s : State) : Answer :=
  match s.appendColumns (glyphWords s.gr flags) with
  | some s' => .next s'
  | none => fail .columnOverflow (Instr.glyph flags).opcode s

end Sys2Proof.Machine
end

