-- ==== Sys2Proof/Machine/Transform.lean ====
section
/-! DEFINITION. The Byte Transform family: XF and XFB (40_transform.md), and the XF pipeline as the
spec describes its stream (R103). -/

namespace Sys2Proof.Machine

/-- t(b) = (0x1A4 − b) mod 256 (40_transform.md R100). -/
def byteTransform (b : Byte) : Byte := BitVec.ofNat 8 ((xfConst - b.toNat) % 256)

/-- XF b: RES <- zext_32(t(b)) (R101). -/
def execXf (b : Byte) (s : State) : Answer := .next (s.setRes ((byteTransform b).setWidth 32))

/-- WB[a] <- t(WB[a]); a byte never written is read as a draw d and then holds t(d) (R102). -/
def State.transformByte (a : Nat) (s : State) : State :=
  (s.readWB a).2.writeWB a (byteTransform (s.readWB a).1)

/-- The transform over the `n` addresses from `a` up, in increasing order (R102). -/
def State.transformFrom (a : Nat) : Nat → State → State
  | 0, s => s
  | n + 1, s => State.transformFrom (a + 1) n (s.transformByte a)

/-- XFB: the transform over WB[0..WB_LEN−1] in place (R102). -/
def execXfb (s : State) : Answer := .next (s.transformFrom 0 s.wbLen.val)

/-! ### The pipeline (R103, 10_state.md R32)

Its contents are no state of the model, since no program can observe them. The stream it makes of a
stream of bytes is written here so that R103 can be stated of every depth. -/

/-- One stage-advance of a pipeline of stage registers, the last of the list the output register: a
byte or a bubble enters, is transformed, and the oldest one leaves. -/
def pipeAdvance (stages : List (Option Byte)) (x : Option Byte) : List (Option Byte) × Option Byte :=
  ((x.map byteTransform :: stages).dropLast, ((x.map byteTransform :: stages).getLast?).join)

/-- What leaves the pipeline while the given bytes and bubbles enter, one a stage-advance. -/
def pipeRun : List (Option Byte) → List (Option Byte) → List (Option Byte)
  | _, [] => []
  | stages, x :: xs => (pipeAdvance stages x).2 :: pipeRun (pipeAdvance stages x).1 xs

/-- The bytes that leave an empty pipeline of the given depth when a stream enters and the pipeline
is then drained, as the interlock does before the next command (R103, 70_reset_and_hazards.md
R204). -/
def pipeStream (depth : Nat) (bs : List Byte) : List Byte :=
  (pipeRun (List.replicate depth none) (bs.map some ++ List.replicate depth none)).filterMap id

end Sys2Proof.Machine
end

