-- ==== Sys2Proof/Machine/Message.lean ====
section
/-! DEFINITION. The column and message family: COL_PACK, COL_UNPACK, COL_APP, MSG_CLR, MSG_EMIT
(42_message.md). -/

namespace Sys2Proof.Machine

/-- COL_PACK flags, P: RES <- zext_32(pack(R, G, Bl, P)) (R122). -/
def execColPack (flags : Colour) (p : BitVec 11) (s : State) : Answer :=
  .next (s.setRes ((pack flags p).setWidth 32))

/-- COL_UNPACK h: RES <- zext_32(unpack(h)) (R123). -/
def execColUnpack (h : Half) (s : State) : Answer := .next (s.setRes ((unpack h).setWidth 32))

/-- COL_APP flags, P: append one Column, or raise ColumnOverflow (R124). -/
def execColApp (flags : Colour) (p : BitVec 11) (s : State) : Answer :=
  match s.appendColumns [pack flags p] with
  | some s' => .next s'
  | none => fail .columnOverflow (Instr.colApp flags p).opcode s

/-- MSG_CLR: CB_CNT <- 0; CB keeps its contents (R125). -/
def execMsgClr (s : State) : Answer := .next { s with cbCnt := 0 }

/-- header(n) = [0x00, 0x81] ++ le16(n + 2) ++ [0, 0, 0, 0] (R126). -/
def header (n : Nat) : List Byte := [0x00, 0x81] ++ le16 (n + 2) ++ [0x00, 0x00, 0x00, 0x00]

/-- S(n): the header, then be16 of Column n−1 down to Column 0 (R127, 90_conflicts.md C1). -/
def State.serialise (s : State) (n : Nat) : List Byte :=
  header n ++ (List.range n).reverse.flatMap fun k => be16 (s.column k)

/-- L = 8 + 2·n never exceeds WB_CAP (R128). -/
theorem emitted_length_fits (n : Fin (Config.colCap + 1)) : hdrLen + 2 * n.val < Config.wbCap + 1 := by
  have := n.isLt
  simp only [Config.colCap, Config.wbCap, hdrLen] at *
  omega

/-- MSG_EMIT: WB[0..L−1] <- T(S(CB_CNT)), WB_LEN <- L, RES <- L (R128). -/
def execMsgEmit (s : State) : Answer :=
  .next { s with
    wb := Store.writeBlock 0 ((s.serialise s.cbCnt.val).map byteTransform) s.wb
    wbLen := ⟨hdrLen + 2 * s.cbCnt.val, emitted_length_fits s.cbCnt⟩
    res := BitVec.ofNat 32 (hdrLen + 2 * s.cbCnt.val) }

end Sys2Proof.Machine
end

