-- ==== Sys2Proof/Machine/Packet.lean ====
section
/-! DEFINITION. The checksum and packet family: CK_CLR, CK_PUSH, CK_FIN, PK_INIT, PK_FRAME
(43_packet.md). -/

namespace Sys2Proof.Machine

/-- CK_CLR: ACC <- 0, CNT <- 0; PBUF keeps its bytes (R142). -/
def execCkClr (s : State) : Answer := .next { s with acc := 0, cnt := 0 }

/-- A count other than 7 is an index into PBUF. -/
theorem count_indexes_payload {n : BitVec 3} (h : ¬ n = 7) : n.toNat < 7 := by
  have h8 := n.isLt
  have h7 : n.toNat ≠ 7 := fun e => h (BitVec.eq_of_toNat_eq e)
  omega

/-- CK_PUSH b: an eighth byte raises ProtocolError; else PBUF[CNT] <- b, ACC <- ACC + b mod 256,
CNT <- CNT + 1 (R143). -/
def execCkPush (b : Byte) (s : State) : Answer :=
  if h : s.cnt = 7 then fail .protocolError (Instr.ckPush b).opcode s
  else .next { s with
    pbuf := s.pbuf.set s.cnt.toNat b (count_indexes_payload h)
    acc := s.acc + b
    cnt := s.cnt + 1 }

/-- CK_FIN: a payload of other than 7 bytes raises ProtocolError; else emit PBUF ++ [ACC],
RES <- zext_32(ACC), ACC <- 0, CNT <- 0 (R144). -/
def execCkFin (s : State) : Answer :=
  if s.cnt = 7 then
    .next { s.emit (s.pbuf.push s.acc) with res := s.acc.setWidth 32, acc := 0, cnt := 0 }
  else fail .protocolError Instr.ckFin.opcode s

/-- mag(s), the order-of-magnitude bucket (R145); outside 0 < s < 0x2000 it is undefined, a free
value that no command reads (log entry 10). -/
def mag (size : Nat) : Nat :=
  if size = 0 then Config.magOutside size
  else if size ≤ 0x00FF then 1
  else if size ≤ 0x01FF then 2
  else if size ≤ 0x03FF then 3
  else if size ≤ 0x07FF then 4
  else if size ≤ 0x0FFF then 5
  else if size ≤ 0x1FFF then 6
  else Config.magOutside size

/-- init_payload(s) = [0x40, 0x40, mag(s), s mod 256, s div 256, 0, 0] (R146). -/
def initPayload (size : Nat) : Payload :=
  #v[0x40, 0x40, BitVec.ofNat 8 (mag size), BitVec.ofNat 8 (size % 256), BitVec.ofNat 8 (size / 256),
    0x00, 0x00]

/-- data_payload(c) = [0x40, 0x23, c[0], ..., c[4]] (R147). -/
def dataPayload (c0 c1 c2 c3 c4 : Byte) : Payload := #v[0x40, 0x23, c0, c1, c2, c3, c4]

/-- padlen(L) = L + ((5 − L mod 5) mod 5) (R148). -/
def padlen (len : Nat) : Nat := len + (chunkLen - len % chunkLen) % chunkLen

/-- pad(L): the bytes, then 0xA4 up to padlen(L) bytes; the pad is not transformed (R148). -/
def padded (bytes : List Byte) : List Byte :=
  bytes ++ List.replicate (padlen bytes.length - bytes.length) padByte

/-- One data payload per 5-byte chunk, in order (R150). -/
def dataPayloads : List Byte → List Payload
  | c0 :: c1 :: c2 :: c3 :: c4 :: rest => dataPayload c0 c1 c2 c3 c4 :: dataPayloads rest
  | _ => []

/-- A data size that PK_INIT and PK_FRAME accept: 0 < size < 0x2000 (R149, R150). -/
def sizeOk (size : Nat) : Bool := decide (0 < size) && decide (size < sizeLimit)

/-- PK_INIT h: SizeOutOfRange first, ProtocolError second (60_exceptions.md R183); else
PBUF <- init_payload(h), emit its packet, RES <- its checksum (R149). -/
def execPkInit (h : Half) (s : State) : Answer :=
  if sizeOk h.toNat then
    if s.cnt = 0 then
      .next ((s.emitPayload (initPayload h.toNat)).setRes ((checksum (initPayload h.toNat)).setWidth 32))
    else fail .protocolError (Instr.pkInit h).opcode s
  else fail .sizeOutOfRange (Instr.pkInit h).opcode s

/-- The payloads of a buffer's packet sequence: one initial payload for the padded length, then one
data payload per chunk (R150). -/
def framePayloads (bytes : List Byte) : List Payload :=
  initPayload (padlen bytes.length) :: dataPayloads (padded bytes)

/-- PK_FRAME: SizeOutOfRange first, ProtocolError second; else emit the packet sequence of
WB[0..WB_LEN−1], PBUF <- the last payload, RES <- the number of packets (R150). -/
def execPkFrame (s : State) : Answer :=
  if sizeOk (padlen s.wbLen.val) then
    if s.cnt = 0 then
      .next (((s.readBlock 0 s.wbLen.val).2.emitPayloads (framePayloads (s.readBlock 0 s.wbLen.val).1)).setRes
        (BitVec.ofNat 32 (1 + padlen s.wbLen.val / chunkLen)))
    else fail .protocolError Instr.pkFrame.opcode s
  else fail .sizeOutOfRange Instr.pkFrame.opcode s

end Sys2Proof.Machine
end

