-- ==== Sys2Proof/Machine/Dispatch.lean ====
section
/-! DEFINITION. One arm per command, each one call of its meaning. -/

namespace Sys2Proof.Machine

def exec (i : Instr) (s : State) : Host.Outcome State Fault Refusal :=
  match i with
  | .nop => Sys2Proof.Machine.execNop s
  | .rd sel => Sys2Proof.Machine.execRd sel s
  | .clrerr => Sys2Proof.Machine.execClrerr s
  | .wbWr a b => Sys2Proof.Machine.execWbWr a b s
  | .wbRd a => Sys2Proof.Machine.execWbRd a s
  | .wbSetlen n => Sys2Proof.Machine.execWbSetlen n s
  | .xf b => Sys2Proof.Machine.execXf b s
  | .xfb => Sys2Proof.Machine.execXfb s
  | .gld r b => Sys2Proof.Machine.execGld r b s
  | .glyph flags => Sys2Proof.Machine.execGlyph flags s
  | .colPack flags p => Sys2Proof.Machine.execColPack flags p s
  | .colUnpack h => Sys2Proof.Machine.execColUnpack h s
  | .colApp flags p => Sys2Proof.Machine.execColApp flags p s
  | .msgClr => Sys2Proof.Machine.execMsgClr s
  | .msgEmit => Sys2Proof.Machine.execMsgEmit s
  | .ckClr => Sys2Proof.Machine.execCkClr s
  | .ckPush b => Sys2Proof.Machine.execCkPush b s
  | .ckFin => Sys2Proof.Machine.execCkFin s
  | .pkInit h => Sys2Proof.Machine.execPkInit h s
  | .pkFrame => Sys2Proof.Machine.execPkFrame s

end Sys2Proof.Machine
end

