-- ==== Sys2Proof/Machine/Port.lean ====
section
/-! DEFINITION. What one port event does: a command word, a reset between two commands, a reset while
a command executes, a second agent (10_state.md R33, R34; 60_exceptions.md R182, R191;
70_reset_and_hazards.md R200, R201). -/

namespace Sys2Proof.Machine

/-- The block executes one accepted command word. A word that spells no command raises
IllegalCommand, which records the word's opcode byte and has no other effect (30_encoding.md R72;
60_exceptions.md R182). -/
def runWord (w : Word) (s : State) : Answer :=
  match decode w with
  | .ok i => exec i s
  | .error _ => fail .illegalCommand (opcodeField w) s

/-- `rst` between two commands: every piece of state takes its reset value but PKT_OUT, which reset
never clears (70_reset_and_hazards.md R200; 10_state.md R35; 90_conflicts.md C6). What the ports
still receive and the count of draws are not the block's state and stay. -/
def State.applyReset (s : State) : State :=
  { State.reset with pktOut := s.pktOut, inputs := s.inputs, draws := s.draws }

/-- `rst` during a command that would have taken the block from `s` to `s'`: PKT_OUT keeps a drawn
number of the packets that the command would emit, none to all, each whole, and all other state takes
its reset value (70_reset_and_hazards.md R201). -/
def State.abandonTo (s s' : State) : State :=
  let emitted := s'.pktOut.drop s.pktOut.length
  let kept := Config.prefixDraw s'.draws % (emitted.length + 1)
  ({ s'.drew with pktOut := s.pktOut ++ emitted.take kept }).applyReset

/-- A command word during which `rst` rises (R201). -/
def abandonWord (w : Word) (s : State) : Answer :=
  match runWord w s with
  | .next s' => .next (s.abandonTo s')
  | .fault f => .fault f
  | .refused r => .refused r

/-- What one port event does to the block. -/
def deliver (e : PortEvent) (s : State) : Answer :=
  match e with
  | .command w => runWord w s
  | .reset => .next s.applyReset
  | .resetDuring w => abandonWord w s
  | .otherAgent _ => .refused .secondHost

/-- One step of the block: it takes the oldest port event; with none it is idle and holds all its
state (60_exceptions.md R193; 70_reset_and_hazards.md R202). -/
def State.advance (s : State) : Answer :=
  match s.inputs with
  | [] => .next s
  | e :: rest => deliver e { s with inputs := rest }

/-- The host will issue the word next. -/
def State.issue (w : Word) (s : State) : State := { s with inputs := .command w :: s.inputs }

end Sys2Proof.Machine
end

