-- ==== Sys2Proof/Machine/Step.lean ====
section
/-! DEFINITION. One step of the machine, and the placing of the word that the next step runs. -/

namespace Sys2Proof.Machine

/-- One step: one port event, or idle (10_state.md R34; Machine/Port.lean). -/
def step (s : State) : Host.Outcome State Fault Refusal := s.advance

/-- `s` with the table word `w` of `nbits` bits as the next word the host issues on the command port:
the block fetches nothing, commands arrive there (10_state.md R21; log entry 1). -/
def State.withFetchWord (s : State) (nbits w : Nat) : State :=
  s.issue (BitVec.ofNat 32 (w % 2 ^ nbits))

end Sys2Proof.Machine
end

