-- ==== Sys2Proof/Machine/Assembler.lean ====
section
/-! DEFINITION. The assembler's side of the commands: the pseudo-instructions and their expansions
(30_encoding.md R78) and the syntax of one line (R77). This is host software: no state of the block
depends on it. -/

namespace Sys2Proof.Machine

/-- The pseudo-instructions (30_encoding.md R78). -/
inductive Pseudo where
  /-- CK_PACKET b0, ..., b6. -/
  | ckPacket (p : Payload)
  /-- LOAD_GLYPH r0, ..., r7. -/
  | loadGlyph (g : Vector Byte 8)
  /-- PUT_GLYPH flags, r0, ..., r7. -/
  | putGlyph (flags : Colour) (g : Vector Byte 8)
  /-- SERIALIZE. -/
  | serialize
  /-- SEND_FAST. -/
  | sendFast
  /-- SEND_TWICE. -/
  | sendTwice
  /-- RD_STATUS. -/
  | rdStatus
  /-- WB_LOAD a, b0, ..., bk. -/
  | wbLoad (a : BitVec 13) (bytes : List Byte)
deriving DecidableEq, Repr

/-- `GLD 0, r0` to `GLD 7, r7` (R78). -/
def loadGlyphRows (g : Vector Byte 8) : List Instr :=
  (List.range 8).map fun r => .gld (BitVec.ofNat 3 r) (g.toList.getD r 0)

/-- `WB_WR a, b0; WB_WR a+1, b1; ...`; no expansion where an address passes 8191 (R78). -/
def loadBytes (a : Nat) : List Byte → Option (List Instr)
  | [] => some []
  | b :: bs =>
    if a < Config.wbCap then (loadBytes (a + 1) bs).map (.wbWr (BitVec.ofNat 13 a) b :: ·)
    else none

/-- The expansion of a pseudo-instruction, in order; `none` where R78 calls it not legal. -/
def Pseudo.expand : Pseudo → Option (List Instr)
  | .ckPacket p => some (.ckClr :: p.toList.map .ckPush ++ [.ckFin])
  | .loadGlyph g => some (loadGlyphRows g)
  | .putGlyph flags g => some (loadGlyphRows g ++ [.glyph flags])
  | .serialize => some [.msgEmit]
  | .sendFast => some [.pkFrame]
  | .sendTwice => some [.pkFrame, .pkFrame]
  | .rdStatus => some [.rd 0]
  | .wbLoad _ [] => none
  | .wbLoad a (b :: bs) => loadBytes a.toNat (b :: bs)

/-! ### One line of assembler text (R77; log entry 16) -/

/-- The value of a digit, upper or lower case. -/
def digitValue (c : Char) : Option Nat :=
  if '0' ≤ c ∧ c ≤ '9' then some (c.toNat - '0'.toNat)
  else if 'a' ≤ c ∧ c ≤ 'f' then some (c.toNat - 'a'.toNat + 10)
  else if 'A' ≤ c ∧ c ≤ 'F' then some (c.toNat - 'A'.toNat + 10)
  else none

/-- Digits of a base after a value read so far. -/
def digitsFrom (base acc : Nat) : List Char → Option Nat
  | [] => some acc
  | c :: cs =>
    match digitValue c with
    | some d => if d < base then digitsFrom base (acc * base + d) cs else none
    | none => none

/-- A number is decimal, or `0x` and hexadecimal digits (R77). -/
def parseNumber : List Char → Option Nat
  | [] => none
  | '0' :: 'x' :: [] => none
  | '0' :: 'x' :: ds => digitsFrom 16 0 ds
  | ds => digitsFrom 10 0 ds

/-- A number that fits a field of `w` bits. -/
def parseField (w : Nat) (cs : List Char) : Option (BitVec w) :=
  match parseNumber cs with
  | some n => if n < 2 ^ w then some (BitVec.ofNat w n) else none
  | none => none

/-- Flag letters, each at most once, in any order (R77). -/
def flagLetters (f : Colour) : List Char → Option Colour
  | [] => some f
  | 'r' :: cs => if f.r then none else flagLetters { f with r := true } cs
  | 'g' :: cs => if f.g then none else flagLetters { f with g := true } cs
  | 'b' :: cs => if f.bl then none else flagLetters { f with bl := true } cs
  | _ => none

/-- `-`, or flag letters (R77). -/
def parseFlags : List Char → Option Colour
  | [] => none
  | ['-'] => some ⟨false, false, false⟩
  | cs => flagLetters ⟨false, false, false⟩ cs

/-- All the bytes of an operand list. -/
def parseBytes : List (List Char) → Option (List Byte)
  | [] => some []
  | x :: xs =>
    match parseField 8 x, parseBytes xs with
    | some b, some bs => some (b :: bs)
    | _, _ => none

/-- A line's text without its comment. -/
def dropComment (line : List Char) : List Char := line.takeWhile (· != ';')

/-- Without the blanks at both ends. -/
def trimBlanks (cs : List Char) : List Char :=
  ((cs.dropWhile (· == ' ')).reverse.dropWhile (· == ' ')).reverse

/-- The texts between commas. -/
def splitCommas : List Char → List (List Char)
  | [] => [[]]
  | c :: cs =>
    match splitCommas cs with
    | [] => [[c]]
    | x :: xs => if c == ',' then [] :: x :: xs else (c :: x) :: xs

/-- The operands after the mnemonic; none where nothing stands there. -/
def operandTexts (cs : List Char) : List (List Char) :=
  if (trimBlanks cs).isEmpty then [] else (splitCommas cs).map trimBlanks

/-- Seven payload bytes of an operand list. -/
def payloadOf : List Byte → Option Payload
  | [b0, b1, b2, b3, b4, b5, b6] => some #v[b0, b1, b2, b3, b4, b5, b6]
  | _ => none

/-- Eight glyph rows of an operand list. -/
def glyphOf : List Byte → Option (Vector Byte 8)
  | [r0, r1, r2, r3, r4, r5, r6, r7] => some #v[r0, r1, r2, r3, r4, r5, r6, r7]
  | _ => none

/-- Format Z takes no operand. -/
def asmZ (i : Instr) : List (List Char) → Option (List Instr)
  | [] => some [i]
  | _ => none

/-- The formats with one numeric operand of `w` bits: B, S, A, N and H. -/
def asmNumber (w : Nat) (mk : BitVec w → Instr) : List (List Char) → Option (List Instr)
  | [x] => (parseField w x).map fun v => [mk v]
  | _ => none

/-- The formats with two numeric operands: AB and GI. -/
def asmNumbers (v w : Nat) (mk : BitVec v → BitVec w → Instr) :
    List (List Char) → Option (List Instr)
  | [x, y] =>
    match parseField v x, parseField w y with
    | some a, some b => some [mk a b]
    | _, _ => none
  | _ => none

/-- Format F. -/
def asmF (mk : Colour → Instr) : List (List Char) → Option (List Instr)
  | [x] => (parseFlags x).map fun f => [mk f]
  | _ => none

/-- Format CP. -/
def asmCP (mk : Colour → BitVec 11 → Instr) : List (List Char) → Option (List Instr)
  | [x, y] =>
    match parseFlags x, parseField 11 y with
    | some f, some p => some [mk f p]
    | _, _ => none
  | _ => none

/-- A pseudo-instruction without operands. -/
def asmPseudo (p : Pseudo) : List (List Char) → Option (List Instr)
  | [] => p.expand
  | _ => none

/-- The pseudo-instructions whose operands are bytes. -/
def asmByteList (mk : List Byte → Option Pseudo) (xs : List (List Char)) : Option (List Instr) :=
  ((parseBytes xs).bind mk).bind Pseudo.expand

/-- PUT_GLYPH's operands. -/
def asmPutGlyph : List (List Char) → Option (List Instr)
  | [] => none
  | x :: xs => (parseFlags x).bind fun f => asmByteList (fun bs => (glyphOf bs).map (.putGlyph f)) xs

/-- WB_LOAD's operands. -/
def asmWbLoad : List (List Char) → Option (List Instr)
  | [] => none
  | x :: xs => (parseField 13 x).bind fun a => asmByteList (fun bs => some (.wbLoad a bs)) xs

/-- The mnemonics, each with what reads its operands (R77, R78). -/
def asmTable : List (String × (List (List Char) → Option (List Instr))) := [
  ("NOP", asmZ .nop), ("RD", asmNumber 4 .rd), ("CLRERR", asmZ .clrerr),
  ("WB_WR", asmNumbers 13 8 .wbWr), ("WB_RD", asmNumber 13 .wbRd),
  ("WB_SETLEN", asmNumber 14 .wbSetlen), ("XF", asmNumber 8 .xf), ("XFB", asmZ .xfb),
  ("GLD", asmNumbers 3 8 .gld), ("GLYPH", asmF .glyph), ("COL_PACK", asmCP .colPack),
  ("COL_UNPACK", asmNumber 16 .colUnpack), ("COL_APP", asmCP .colApp), ("MSG_CLR", asmZ .msgClr),
  ("MSG_EMIT", asmZ .msgEmit), ("CK_CLR", asmZ .ckClr), ("CK_PUSH", asmNumber 8 .ckPush),
  ("CK_FIN", asmZ .ckFin), ("PK_INIT", asmNumber 16 .pkInit), ("PK_FRAME", asmZ .pkFrame),
  ("CK_PACKET", asmByteList fun bs => (payloadOf bs).map .ckPacket),
  ("LOAD_GLYPH", asmByteList fun bs => (glyphOf bs).map .loadGlyph),
  ("PUT_GLYPH", asmPutGlyph), ("SERIALIZE", asmPseudo .serialize),
  ("SEND_FAST", asmPseudo .sendFast), ("SEND_TWICE", asmPseudo .sendTwice),
  ("RD_STATUS", asmPseudo .rdStatus), ("WB_LOAD", asmWbLoad) ]

/-- The commands that one line of assembler text stands for; none for a line that holds only blanks
or a comment, `none` for a line that is not of the syntax (R77). -/
def assembleLine (line : List Char) : Option (List Instr) :=
  let body := trimBlanks (dropComment line)
  let mnem := body.takeWhile (· != ' ')
  if body.isEmpty then some []
  else
    match asmTable.find? (fun row => row.1.toList == mnem) with
    | some row => row.2 (operandTexts (body.dropWhile (· != ' ')))
    | none => none

end Sys2Proof.Machine
end

