-- ==== Sys2Proof/Safety.lean ====
section
/-! DEFINITION. What counts as a sound state and a safe run, in the terms the statements use. -/

namespace Sys2Proof.Machine

/-- The column buffer: canonical, below COL_CAP, every entry below CB_CNT written, every word a packed
Column, bits 12 and 11 zero (10_state.md R27; 42_message.md R120). -/
structure ColumnsOk (s : State) : Prop where
  /-- Indices strictly rise and stay below COL_CAP. -/
  wf : Store.wf Config.colCap s.cb
  /-- "every entry below CB_CNT was written by an append after the last MSG_CLR or reset" (R27). -/
  written : ∀ k, k < s.cbCnt.val → (Store.read k s.cb).isSome = true
  /-- Every column word has w[12:11] = 0 (R120). -/
  packed : ∀ k w, Store.read k s.cb = some w → w.extractLsb' 11 2 = 0#2

/-- STATUS: ECODE is 0..4, and EOP is 0 while ECODE is 0 (10_state.md R23). -/
structure StatusOk (s : State) : Prop where
  /-- "ECODE takes only the values 0, 1, 2, 3 and 4" (R23). -/
  codes : s.ecode.toNat ≤ 4
  /-- "0 while ECODE = 0" (R23). -/
  quiet : s.ecode = 0 → s.eop = 0

/-- The accumulator's invariant: ACC is the sum mod 256 of the bytes pushed (10_state.md R25). -/
def AccumulatorOk (s : State) : Prop := s.acc = sumBytes (s.pbuf.toList.take s.cnt.toNat)

/-- Every packet of PKT_OUT ends in the checksum of its payload (43_packet.md R140, R141). -/
def PacketsOk (s : State) : Prop :=
  ∀ p ∈ s.pktOut, ∃ q : Payload, p = q.push (checksum q)

/-- The invariant of the block: what every state of every run satisfies. -/
structure Inv (s : State) : Prop where
  /-- The wire buffer is canonical, with addresses 0..8191 (20_memory.md R50). -/
  memory : Memory.wf s.wb
  /-- The column buffer. -/
  columns : ColumnsOk s
  /-- STATUS. -/
  status : StatusOk s
  /-- The accumulator. -/
  accumulator : AccumulatorOk s
  /-- The packets emitted. -/
  packets : PacketsOk s

/-- The start of a run: the reset state, with the host's command words waiting
(70_reset_and_hazards.md R209). -/
def startRun (ws : List Word) : State := { State.reset with inputs := ws.map .command }

/-- What a claim may observe at the end of a run (70_reset_and_hazards.md R209). -/
structure Observed where
  /-- RES, the `res` output. -/
  res : Word
  /-- STATUS. -/
  status : Word
  /-- CKSTAT. -/
  ckstat : Word
  /-- CB_CNT. -/
  cbCnt : Nat
  /-- WB_LEN. -/
  wbLen : Nat
  /-- The written bytes of WB. -/
  written : List Host.Cell
  /-- PKT_OUT. -/
  pktOut : List Packet
deriving DecidableEq, Repr

/-- The observation of a state (70_reset_and_hazards.md R209). -/
def State.observed (s : State) : Observed where
  res := s.res
  status := s.statusWord
  ckstat := s.ckstatWord
  cbCnt := s.cbCnt.val
  wbLen := s.wbLen.val
  written := s.wb
  pktOut := s.pktOut

/-- One host drives the ports: no event of another agent waits (60_exceptions.md R191). -/
def SingleHost (s : State) : Prop := ∀ w, PortEvent.otherAgent w ∉ s.inputs

/-- The commands of a list one after another, as the host issues the expansion of a
pseudo-instruction (30_encoding.md R78). -/
def execAll : List Instr → State → Answer
  | [], s => .next s
  | i :: is, s =>
    match exec i s with
    | .next s' => execAll is s'
    | .fault f => .fault f
    | .refused r => .refused r

/-- How many of the addresses 0..a−1 no command has written: how many draws a command makes that
reads WB[0..a−1] in increasing order (10_state.md R28; log entry 2). -/
def State.unwrittenBelow (a : Nat) (s : State) : Nat :=
  (List.range a).countP fun k => (Memory.read s.wb k).isNone

/-- pad(L)[a], the byte at address a of the padded buffer that PK_FRAME sends, L = WB_LEN: a wire
byte, which is a draw where no command has written it, or 0xA4 (43_packet.md R148, R150; 10_state.md
R28). -/
def State.sentByte (a : Nat) (s : State) : Byte :=
  if a < s.wbLen.val then (Memory.read s.wb a).getD (Config.wbDraw (s.draws + s.unwrittenBelow a))
  else 0xA4

end Sys2Proof.Machine
end

