-- ==== Sys2Proof/WellFormed.lean ====
section
/-! DEFINITION. Which commands have only legal field values (30_encoding.md R72, R75). A field's
width is in its type; two fields have values that are illegal although they fit. An ill-formed
command still decodes and still runs: it raises IllegalCommand in its own rule (R161, R165; log
entry 15). -/

namespace Sys2Proof

/-- RD's selector is legal: sel < 7 (44_control.md R161). -/
def selectorLegal (sel : BitVec 4) : Bool := decide (sel.toNat < 7)

/-- WB_SETLEN's length is legal: n ≤ 8192 (44_control.md R165). -/
def lengthLegal (n : BitVec 14) : Bool := decide (n.toNat ≤ Config.wbCap)

/-- Every named field value is legal (30_encoding.md R72, second half, and R75). -/
def Instr.wellFormed : Instr → Bool
  | .nop => true
  | .rd sel => selectorLegal sel
  | .clrerr => true
  | .wbWr _ _ => true
  | .wbRd _ => true
  | .wbSetlen n => lengthLegal n
  | .xf _ => true
  | .xfb => true
  | .gld _ _ => true
  | .glyph _ => true
  | .colPack _ _ => true
  | .colUnpack _ => true
  | .colApp _ _ => true
  | .msgClr => true
  | .msgEmit => true
  | .ckClr => true
  | .ckPush _ => true
  | .ckFin => true
  | .pkInit _ => true
  | .pkFrame => true

end Sys2Proof
end

