-- ==== Sys2Proof/Certificates/Slice0/Obligations.lean ====
section
/-! DEFINITION. The statements for the provers. A command statement has two halves: what `exec` answers
(its own effect, then the errors of its rule), and what a step does with every word of the command's
opcode that the host issues (its fields, its reserved bits). `s.issue w` is `s` with `w` as the next
word of the command port. That a command which emits packets (CK_FIN, PK_INIT, PK_FRAME) completes at
once is the model's no-stall, log entry 7, and rests on the premise of 70_reset_and_hazards.md R205. -/

open Sys2Proof Sys2Proof.Machine

/-! ### The step, the port, decoding -/

/-- 10_state.md R34, R21: one command per step; a step runs the command that the next word of the
command port decodes to, on the state in which that word has been taken. -/
def Obligations.StepRunsDecodedCommand : Prop :=
  ∀ (s : State) (w : Word) (rest : List PortEvent) (i : Instr),
    s.inputs = .command w :: rest → decode w = .ok i →
      step s = exec i { s with inputs := rest }

/-- 60_exceptions.md R193, 70_reset_and_hazards.md R202: with nothing on the ports the block is idle
and holds all state. -/
def Obligations.IdleBlockHoldsState : Prop :=
  ∀ s : State, s.inputs = [] → step s = .next s

/-- 30_encoding.md R74 with R72: an opcode byte outside the map raises IllegalCommand, whatever the
operand bits, and STATUS is all that can change. -/
def Obligations.UndefinedOpcodeRaisesIllegalCommand : Prop :=
  ∀ (op : Byte) (x : BitVec 24) (s : State),
    op ∉ ([0x00, 0x01, 0x02, 0x03, 0x04, 0x05, 0x10, 0x11, 0x20, 0x21, 0x30, 0x31, 0x32, 0x33, 0x34,
      0x40, 0x41, 0x42, 0x43, 0x44] : List Byte) →
      step (s.issue (op ++ x)) = .next (s.raise .illegalCommand op)

/-- 30_encoding.md R71, R73: decoding an encoded command gives the command back, with every operand at
every value its field admits (the illegal field values of R72 among them: they decode, and raise in
their own rule). -/
def Obligations.DecodeOfEncode : Prop :=
  ∀ i : Instr, decode (encode i) = .ok i

/-- 30_encoding.md R70 to R73: each command has one word: a word that decodes to a command is the
command's encoding, so that no bit of a word is dropped. -/
def Obligations.EncodeOfDecode : Prop :=
  ∀ (w : Word) (i : Instr), decode w = .ok i → encode i = w

/-- 30_encoding.md R73: "No two rows match the same word." -/
def Obligations.OpcodeRowsDisjoint : Prop :=
  ∀ (w : Word) (p q : Row), p ∈ opcodeMap → q ∈ opcodeMap →
    w &&& p.mask = p.value → w &&& q.mask = q.value → p.mnemonic = q.mnemonic

/-- 30_encoding.md R77, column "word": the ten example words decode to the commands beside them. -/
def Obligations.ExampleWordsDecode : Prop :=
  decode 0x34000000 = .ok .msgEmit ∧
  decode 0x1000003C = .ok (.xf 0x3C) ∧
  decode 0x01000001 = .ok (.rd 1) ∧
  decode 0x030010A4 = .ok (.wbWr 0x10 0xA4) ∧
  decode 0x04000010 = .ok (.wbRd 0x10) ∧
  decode 0x05000008 = .ok (.wbSetlen 8) ∧
  decode 0x20000366 = .ok (.gld 3 0x66) ∧
  decode 0x21000800 = .ok (.glyph ⟨true, false, false⟩) ∧
  decode 0x32003155 = .ok (.colApp ⟨false, true, true⟩ 0x155) ∧
  decode 0x4300000A = .ok (.pkInit 0x0A)

/-! ### Errors -/

/-- 60_exceptions.md R182 with the codes of R180: raising an error while ECODE is 0 records the code
and the opcode byte and changes nothing else; otherwise it changes nothing at all. -/
def Obligations.ErrorCaptureKeepsFirstError : Prop :=
  ∀ (e : ErrorKind) (op : Byte) (s : State),
    (s.ecode = 0 → fail e op s = .next { s with
      ecode := (match e with
        | .protocolError => 1
        | .sizeOutOfRange => 2
        | .illegalCommand => 3
        | .columnOverflow => 4)
      eop := op }) ∧
    (s.ecode ≠ 0 → fail e op s = .next s)

/-- 60_exceptions.md R184, R182: every command word either completes or changes nothing but STATUS: where
a word other than CLRERR's changes STATUS at all, no error was recorded before, and the next state is the
old one, the word taken, with an error of the word's opcode byte recorded. -/
def Obligations.ErrorsArePrecise : Prop :=
  ∀ (s t : State) (w : Word) (rest : List PortEvent),
    s.inputs = .command w :: rest → w ≠ 0x02000000 → step s = .next t →
    (t.ecode ≠ s.ecode ∨ t.eop ≠ s.eop) →
      s.ecode = 0 ∧ ∃ e : ErrorKind,
        t = { s with inputs := rest, ecode := e.code, eop := w.extractLsb' 24 8 }

/-- 60_exceptions.md R182, R186: while an error is recorded, no word but CLRERR's changes STATUS. -/
def Obligations.FirstErrorIsKept : Prop :=
  ∀ (s t : State) (w : Word) (rest : List PortEvent),
    s.inputs = .command w :: rest → s.ecode ≠ 0 → w ≠ 0x02000000 → step s = .next t →
      t.ecode = s.ecode ∧ t.eop = s.eop

/-- 60_exceptions.md R188: `err` is pending "from the command that captures an error until CLRERR or
reset": a step that lowers it took CLRERR or a reset. -/
def Obligations.ErrFallsOnlyByClrerrOrReset : Prop :=
  ∀ s t : State, step s = .next t → s.ef = true → t.ef = false →
    s.inputs.head? = some (.command 0x02000000) ∨ s.inputs.head? = some .reset ∨
      ∃ w, s.inputs.head? = some (.resetDuring w)

/-- 10_state.md R24: commands run the same whether EF is 0 or 1: from two states that differ in STATUS
alone, every command goes on to states that differ in STATUS alone, but for `RD 0`, which reads
STATUS into RES. -/
def Obligations.StatusNeverSteersCommands : Prop :=
  ∀ (i : Instr) (s : State) (e : BitVec 4) (o : Byte),
    ∃ t u : State, exec i s = .next t ∧ exec i { s with ecode := e, eop := o } = .next u ∧
      (i ≠ .rd 0 → u = { t with ecode := u.ecode, eop := u.eop }) ∧
      (i = .rd 0 → u = { t with ecode := u.ecode, eop := u.eop, res := u.res })

/-- 60_exceptions.md R181 with R72, R180: which errors each command raises, seen from STATUS = 0. A word
that spells no command raises IllegalCommand with its own opcode byte; RD and WB_SETLEN raise
IllegalCommand exactly where their field value is illegal; the twelve commands R181 lists first raise
nothing once their reserved bits are 0. -/
def Obligations.CommandsRaiseOnlyTheirErrors : Prop :=
  ∀ (s t : State) (w : Word) (rest : List PortEvent),
    s.inputs = .command w :: rest → s.ecode = 0 → step s = .next t →
      match decode w with
      | .error _ => t.ecode = 3 ∧ t.eop = w.extractLsb' 24 8
      | .ok (.rd sel) => t.ecode = if sel.toNat < 7 then 0 else 3
      | .ok (.wbSetlen n) => t.ecode = if n.toNat ≤ 8192 then 0 else 3
      | .ok (.glyph _) => t.ecode = if s.cbCnt.val ≤ 4083 then 0 else 4
      | .ok (.colApp _ _) => t.ecode = if s.cbCnt.val < 4091 then 0 else 4
      | .ok (.ckPush _) => t.ecode = if s.cnt = 7 then 1 else 0
      | .ok .ckFin => t.ecode = if s.cnt = 7 then 0 else 1
      | .ok (.pkInit h) =>
        t.ecode = if h.toNat = 0 ∨ 0x2000 ≤ h.toNat then 2 else if s.cnt = 0 then 0 else 1
      | .ok .pkFrame => t.ecode =
        if s.wbLen.val = 0 ∨ 8191 ≤ s.wbLen.val then 2 else if s.cnt = 0 then 0 else 1
      | .ok _ => t.ecode = 0

/-! ### Reset, inputs, the invariant -/

/-- 10_state.md R35, 70_reset_and_hazards.md R200, 90_conflicts.md C6: after `rst` between two commands
every piece of state holds its reset value, but PKT_OUT, which keeps its packets; State.reset holds
those values and an empty PKT_OUT; CAPS is a constant. Of the model's own fields `inputs` and `draws`
nothing is said. -/
def Obligations.ResetLeavesResetValues : Prop :=
  (∀ (s : State) (rest : List PortEvent), s.inputs = .reset :: rest → ∃ t : State, step s = .next t ∧
    t = { res := 0, ecode := 0, eop := 0, acc := 0, cnt := 0, pbuf := #v[0, 0, 0, 0, 0, 0, 0],
          gr := #v[0, 0, 0, 0, 0, 0, 0, 0], cbCnt := 0, cb := [], wbLen := 0, wb := [],
          pktOut := s.pktOut, inputs := t.inputs, draws := t.draws }) ∧
  State.reset =
    { res := 0, ecode := 0, eop := 0, acc := 0, cnt := 0, pbuf := #v[0, 0, 0, 0, 0, 0, 0],
      gr := #v[0, 0, 0, 0, 0, 0, 0, 0], cbCnt := 0, cb := [], wbLen := 0, wb := [],
      pktOut := [], inputs := State.reset.inputs, draws := State.reset.draws } ∧
  ∀ s : State, s.register 6 = some 0x20000FFB

/-- 70_reset_and_hazards.md R201: `rst` during a command leaves in PKT_OUT a prefix, from none to all,
of the packets that the command emits, each whole; all other state takes its reset value. Of the model's
own fields `inputs` and `draws` nothing is said. -/
def Obligations.ResetDuringCommandKeepsWholePackets : Prop :=
  ∀ (s s' : State) (w : Word) (rest : List PortEvent), s.inputs = .resetDuring w :: rest →
    step (({ s with inputs := rest } : State).issue w) = .next s' →
      ∃ (t : State) (pkts : List Packet) (k : Nat), step s = .next t ∧
        s'.pktOut = s.pktOut ++ pkts ∧ k ≤ pkts.length ∧
        t = { State.reset with
          pktOut := s.pktOut ++ pkts.take k, inputs := t.inputs, draws := t.draws }

/-- 60_exceptions.md R191, 20_memory.md R62: a command word of a second agent is refused. -/
def Obligations.SecondHostIsRefused : Prop :=
  ∀ (s : State) (w : Word) (rest : List PortEvent), s.inputs = .otherAgent w :: rest →
    step s = .refused .secondHost

/-- While one host drives the ports, every step of the model answers a next state, and one host goes on
driving them. No error stops the block (60_exceptions.md R182). That emission never stalls is log entry 7
(DEDUCED, unsafe): on the chip this holds only under the premise of 70_reset_and_hazards.md R205, that the
transport accepts every packet; one that never does hangs the block. -/
def Obligations.BlockNeverStops : Prop :=
  ∀ s : State, SingleHost s → ∃ t, step s = .next t ∧ SingleHost t

/-- The invariant holds in the reset state (10_state.md R25, R27, R35). -/
def Obligations.ResetStateIsSound : Prop := Inv State.reset

/-- Every step keeps the invariant: WB and CB canonical and inside their arrays (20_memory.md R50),
every Column of the Message written and in packed form (10_state.md R27, 42_message.md R120), ECODE
0..4 and EOP 0 while ECODE is 0 (10_state.md R23), ACC the sum of the pushed bytes (10_state.md R25),
every packet of PKT_OUT ending in its payload's checksum (43_packet.md R140, R141). -/
def Obligations.EveryStepKeepsInvariant : Prop :=
  ∀ s t : State, Inv s → step s = .next t → Inv t

/-- Any number of steps of the model from a sound state with one host answers a next state, which is
sound again. That the steps go on rests on log entry 7 (DEDUCED, unsafe): emission never stalls. On the
chip it holds only under the premise of 70_reset_and_hazards.md R205 (R208 names it too), that the
transport accepts every packet. -/
def Obligations.RunsStaySound : Prop :=
  ∀ (k : Nat) (s : State), Inv s → SingleHost s →
    ∃ t : State, Sys2Proof.core.run k s = .next t ∧ Inv t ∧ SingleHost t

/-! ### Which command writes what -/

/-- 10_state.md R22, R25, R26: RES, ACC and CNT, PBUF and GR are written by the commands their rules
name, and by no other. -/
def Obligations.RegistersHaveNoOtherWriters : Prop :=
  ∀ (i : Instr) (s t : State), exec i s = .next t →
    (match i with
      | .xf _ | .colPack _ _ | .colUnpack _ | .msgEmit | .ckFin | .pkInit _ | .pkFrame | .rd _
      | .wbRd _ => True
      | _ => t.res = s.res) ∧
    (match i with
      | .ckClr | .ckPush _ | .ckFin => True
      | _ => t.acc = s.acc ∧ t.cnt = s.cnt) ∧
    (match i with
      | .ckPush _ | .pkInit _ | .pkFrame => True
      | _ => t.pbuf = s.pbuf) ∧
    (match i with
      | .gld _ _ => True
      | _ => t.gr = s.gr)

/-- 10_state.md R27, R28, R29: CB and CB_CNT, WB and WB_LEN, and PKT_OUT are written by the commands
their rules name, and by no other; the ports' waiting events by none. -/
def Obligations.BuffersHaveNoOtherWriters : Prop :=
  ∀ (i : Instr) (s t : State), exec i s = .next t →
    (match i with
      | .colApp _ _ | .glyph _ => True
      | .msgClr => t.cb = s.cb ∧ t.cbCnt.val = 0
      | _ => t.cb = s.cb ∧ t.cbCnt = s.cbCnt) ∧
    (match i with
      | .msgEmit | .xfb | .wbWr _ _ => True
      | _ => ∀ a, Memory.read t.wb a = Memory.read s.wb a) ∧
    (match i with
      | .msgEmit | .wbSetlen _ => True
      | _ => t.wbLen = s.wbLen) ∧
    (match i with
      | .ckFin | .pkInit _ | .pkFrame => True
      | _ => t.pktOut = s.pktOut) ∧
    t.inputs = s.inputs

/-- 10_state.md R29, 90_conflicts.md C6: PKT_OUT is append-only over every step, a reset's too. -/
def Obligations.PacketOutputIsAppendOnly : Prop :=
  ∀ s t : State, step s = .next t → ∃ pkts : List Packet, t.pktOut = s.pktOut ++ pkts

/-! ### Control family (44_control.md) -/

/-- R160: NOP changes nothing; any other word of its opcode is illegal. -/
def Obligations.NopChangesNothing : Prop :=
  (∀ s : State, exec .nop s = .next s) ∧
  ∀ (x : BitVec 24) (s : State), step (s.issue (0x00#8 ++ x)) =
    if x = 0 then exec .nop s else .next (s.raise .illegalCommand 0x00)

/-- R161 with the register map of 10_state.md R31: RD reads the register its selector names into RES
and changes nothing else; a reserved selector raises IllegalCommand. -/
def Obligations.RdReadsRegisterMap : Prop :=
  (∀ s : State,
    exec (.rd 0) s = .next { s with res := 0#16 ++ s.eop ++ 0#4 ++ s.ecode } ∧
    exec (.rd 1) s = .next { s with res := 0#21 ++ s.cnt ++ s.acc } ∧
    exec (.rd 2) s = .next { s with res := BitVec.ofNat 32 s.cbCnt.val } ∧
    exec (.rd 3) s = .next { s with res := BitVec.ofNat 32 s.wbLen.val } ∧
    exec (.rd 4) s = .next { s with res := s.gr[3] ++ s.gr[2] ++ s.gr[1] ++ s.gr[0] } ∧
    exec (.rd 5) s = .next { s with res := s.gr[7] ++ s.gr[6] ++ s.gr[5] ++ s.gr[4] } ∧
    exec (.rd 6) s = .next { s with res := 0x20000FFB }) ∧
  (∀ (sel : BitVec 4) (s : State), 7 ≤ sel.toNat →
    exec (.rd sel) s = .next (s.raise .illegalCommand 0x01)) ∧
  ∀ (x : BitVec 24) (s : State), step (s.issue (0x01#8 ++ x)) =
    if x.extractLsb' 4 20 = 0 then exec (.rd (x.extractLsb' 0 4)) s
    else .next (s.raise .illegalCommand 0x01)

/-- R162: CLRERR clears ECODE and EOP and nothing else; a malformed CLRERR clears nothing. -/
def Obligations.ClrerrClearsStatus : Prop :=
  (∀ s : State, exec .clrerr s = .next { s with ecode := 0, eop := 0 }) ∧
  ∀ (x : BitVec 24) (s : State), step (s.issue (0x02#8 ++ x)) =
    if x = 0 then exec .clrerr s else .next (s.raise .illegalCommand 0x02)

/-- R163: WB_WR writes the one byte at its address; every other byte and all other state stay. -/
def Obligations.WbWrWritesOneByte : Prop :=
  (∀ (a : BitVec 13) (b : Byte) (s : State), ∃ t : State, exec (.wbWr a b) s = .next t ∧
    t = { s with wb := t.wb } ∧ Memory.read t.wb a.toNat = some b ∧
    ∀ k, k ≠ a.toNat → Memory.read t.wb k = Memory.read s.wb k) ∧
  ∀ (x : BitVec 24) (s : State), step (s.issue (0x03#8 ++ x)) =
    if x.extractLsb' 21 3 = 0 then exec (.wbWr (x.extractLsb' 8 13) (x.extractLsb' 0 8)) s
    else .next (s.raise .illegalCommand 0x03)

/-- R164: WB_RD reads the byte at its address into RES, zero-extended, at any address; a byte never
written is a fresh draw (10_state.md R28, log entry 2). Nothing else changes. -/
def Obligations.WbRdReadsOneByte : Prop :=
  (∀ (a : BitVec 13) (b : Byte) (s : State), Memory.read s.wb a.toNat = some b →
    exec (.wbRd a) s = .next { s with res := b.setWidth 32 }) ∧
  (∀ (a : BitVec 13) (s : State), Memory.read s.wb a.toNat = none →
    exec (.wbRd a) s = .next
      { s with res := (Config.wbDraw s.draws).setWidth 32, draws := s.draws + 1 }) ∧
  ∀ (x : BitVec 24) (s : State), step (s.issue (0x04#8 ++ x)) =
    if x.extractLsb' 13 11 = 0 then exec (.wbRd (x.extractLsb' 0 13)) s
    else .next (s.raise .illegalCommand 0x04)

/-- R165: WB_SETLEN sets WB_LEN and nothing else; a length beyond WB_CAP raises IllegalCommand. -/
def Obligations.WbSetlenSetsLength : Prop :=
  (∀ (n : BitVec 14) (s : State), n.toNat ≤ 8192 → ∃ t : State, exec (.wbSetlen n) s = .next t ∧
    t.wbLen.val = n.toNat ∧ t = { s with wbLen := t.wbLen }) ∧
  (∀ (n : BitVec 14) (s : State), 8192 < n.toNat →
    exec (.wbSetlen n) s = .next (s.raise .illegalCommand 0x05)) ∧
  ∀ (x : BitVec 24) (s : State), step (s.issue (0x05#8 ++ x)) =
    if x.extractLsb' 14 10 = 0 then exec (.wbSetlen (x.extractLsb' 0 14)) s
    else .next (s.raise .illegalCommand 0x05)

/-! ### Byte Transform family (40_transform.md) -/

/-- R100: the definition of t, and every property the rule states of it. -/
def Obligations.ByteTransformLaws : Prop :=
  (∀ b : Byte, (byteTransform b).toNat = (0x1A4 - b.toNat) % 256 ∧ byteTransform b = 0xA4 - b ∧
    byteTransform (byteTransform b) = b ∧ byteTransform b + b = 0xA4 ∧
    (byteTransform b = b ↔ b = 0x52 ∨ b = 0xD2)) ∧
  byteTransform 0xA4 = 0x00 ∧ byteTransform 0x00 = 0xA4 ∧ Function.Bijective byteTransform ∧
  byteTransform 0x00 ^^^ 0x00 = 0xA4 ∧ byteTransform 0x01 ^^^ 0x01 = 0xA2

/-- R101: XF puts t(b), zero-extended, into RES and changes nothing else. -/
def Obligations.XfTransformsOneByte : Prop :=
  (∀ (b : Byte) (s : State),
    exec (.xf b) s = .next { s with res := BitVec.ofNat 32 ((0x1A4 - b.toNat) % 256) }) ∧
  ∀ (x : BitVec 24) (s : State), step (s.issue (0x10#8 ++ x)) =
    if x.extractLsb' 8 16 = 0 then exec (.xf (x.extractLsb' 0 8)) s
    else .next (s.raise .illegalCommand 0x10)

/-- R102: XFB replaces every byte below WB_LEN by its transform, where a byte never written is a draw d
and then holds t(d); bytes from WB_LEN up and all other state stay. The draws are numbered in the
order of the addresses (10_state.md R28, log entry 2). -/
def Obligations.XfbTransformsBuffer : Prop :=
  (∀ s : State, ∃ t : State, exec .xfb s = .next t ∧
    t = { s with wb := t.wb, draws := s.draws + s.unwrittenBelow s.wbLen.val } ∧
    (∀ a, a < s.wbLen.val → Memory.read t.wb a =
      some (0xA4 - (Memory.read s.wb a).getD (Config.wbDraw (s.draws + s.unwrittenBelow a)))) ∧
    ∀ a, s.wbLen.val ≤ a → Memory.read t.wb a = Memory.read s.wb a) ∧
  ∀ (x : BitVec 24) (s : State), step (s.issue (0x11#8 ++ x)) =
    if x = 0 then exec .xfb s else .next (s.raise .illegalCommand 0x11)

/-- R102, R103: where every byte below WB_LEN has been written, two XFB in a row give back the state. -/
def Obligations.XfbTwiceRestores : Prop :=
  ∀ s : State, Memory.wf s.wb → (∀ a, a < s.wbLen.val → (Memory.read s.wb a).isSome = true) →
    ∃ t : State, exec .xfb s = .next t ∧ exec .xfb t = .next s

/-- R103, 00_scope.md R7: a pipeline of any depth of at least 1 gives its input stream transformed, in
the same order, with no byte dropped, added or reordered, so that XF_STAGES never shows; a stream that
passes twice comes back as it was. -/
def Obligations.PipelineKeepsStream : Prop :=
  ∀ (depth : Nat) (bs : List Byte), 1 ≤ depth →
    pipeStream depth bs = bs.map (fun b => 0xA4 - b) ∧ pipeStream depth (pipeStream depth bs) = bs

/-! ### Glyph family (41_glyph.md) -/

/-- R112: GLD writes its one row register and changes nothing else. -/
def Obligations.GldWritesOneRow : Prop :=
  (∀ (i : BitVec 3) (b : Byte) (s : State), ∃ t : State, exec (.gld i b) s = .next t ∧
    t = { s with gr := t.gr } ∧
    ∀ (r : Nat) (h : r < 8), t.gr[r] = if r = i.toNat then b else s.gr[r]) ∧
  ∀ (x : BitVec 24) (s : State), step (s.issue (0x20#8 ++ x)) =
    if x.extractLsb' 11 13 = 0 then exec (.gld (x.extractLsb' 8 3) (x.extractLsb' 0 8)) s
    else .next (s.raise .illegalCommand 0x20)

/-- R113 with the transposition of R110, R111 and the packing of 42_message.md R120: GLYPH appends
eight Columns, the flags in bits 15..13, rows 0, 1 and 10 unlit, row r + 2 of Column c lit iff
GR[r][7 − c] = 1; where they do not all fit it appends none and raises ColumnOverflow. -/
def Obligations.GlyphAppendsTransposedGlyph : Prop :=
  (∀ (f : Colour) (s : State), s.cbCnt.val + 8 ≤ 4091 → ∃ t : State, exec (.glyph f) s = .next t ∧
    t = { s with cb := t.cb, cbCnt := t.cbCnt } ∧ t.cbCnt.val = s.cbCnt.val + 8 ∧
    (∀ c, c < 8 → ∃ w : Half, Store.read (s.cbCnt.val + c) t.cb = some w ∧
      w.getLsbD 15 = f.g ∧ w.getLsbD 14 = f.bl ∧ w.getLsbD 13 = f.r ∧
      w.getLsbD 12 = false ∧ w.getLsbD 11 = false ∧
      w.getLsbD 0 = false ∧ w.getLsbD 1 = false ∧ w.getLsbD 10 = false ∧
      ∀ (r : Nat) (h : r < 8), w.getLsbD (r + 2) = s.gr[r].getLsbD (7 - c)) ∧
    ∀ k, k < s.cbCnt.val ∨ s.cbCnt.val + 8 ≤ k → Store.read k t.cb = Store.read k s.cb) ∧
  (∀ (f : Colour) (s : State), 4083 < s.cbCnt.val →
    exec (.glyph f) s = .next (s.raise .columnOverflow 0x21)) ∧
  ∀ (x : BitVec 24) (s : State), step (s.issue (0x21#8 ++ x)) =
    if x.extractLsb' 14 10 = 0 ∧ x.extractLsb' 0 11 = 0 then
      exec (.glyph ⟨x.getLsbD 11, x.getLsbD 12, x.getLsbD 13⟩) s
    else .next (s.raise .illegalCommand 0x21)

/-! ### Column and message family (42_message.md) -/

/-- R122 with R120: COL_PACK puts the packed Column, zero-extended, into RES and changes nothing
else. -/
def Obligations.ColPackPacksColumn : Prop :=
  (∀ (f : Colour) (p : BitVec 11) (s : State), exec (.colPack f p) s = .next { s with
    res := BitVec.ofNat 32
      (f.g.toNat * 0x8000 + f.bl.toNat * 0x4000 + f.r.toNat * 0x2000 + p.toNat) }) ∧
  ∀ (x : BitVec 24) (s : State), step (s.issue (0x30#8 ++ x)) =
    if x.extractLsb' 14 10 = 0 then
      exec (.colPack ⟨x.getLsbD 11, x.getLsbD 12, x.getLsbD 13⟩ (x.extractLsb' 0 11)) s
    else .next (s.raise .illegalCommand 0x30)

/-- R123 with R121: COL_UNPACK puts the unpacked value, zero-extended, into RES and changes nothing
else; bits 12 and 11 of the operand are ignored. -/
def Obligations.ColUnpackUnpacksWord : Prop :=
  (∀ (h : Half) (s : State), exec (.colUnpack h) s = .next { s with
    res := BitVec.ofNat 32 ((h.getLsbD 14).toNat * 0x2000 + (h.getLsbD 15).toNat * 0x1000 +
      (h.getLsbD 13).toNat * 0x0800 + h.toNat % 0x0800) }) ∧
  ∀ (x : BitVec 24) (s : State), step (s.issue (0x31#8 ++ x)) =
    if x.extractLsb' 16 8 = 0 then exec (.colUnpack (x.extractLsb' 0 16)) s
    else .next (s.raise .illegalCommand 0x31)

/-- R124: COL_APP appends one packed Column, or, with the Message full, appends none and raises
ColumnOverflow. -/
def Obligations.ColAppAppendsColumn : Prop :=
  (∀ (f : Colour) (p : BitVec 11) (s : State), s.cbCnt.val < 4091 →
    ∃ t : State, exec (.colApp f p) s = .next t ∧
      t = { s with cb := t.cb, cbCnt := t.cbCnt } ∧ t.cbCnt.val = s.cbCnt.val + 1 ∧
      Store.read s.cbCnt.val t.cb = some (BitVec.ofNat 16
        (f.g.toNat * 0x8000 + f.bl.toNat * 0x4000 + f.r.toNat * 0x2000 + p.toNat)) ∧
      ∀ k, k ≠ s.cbCnt.val → Store.read k t.cb = Store.read k s.cb) ∧
  (∀ (f : Colour) (p : BitVec 11) (s : State), s.cbCnt.val = 4091 →
    exec (.colApp f p) s = .next (s.raise .columnOverflow 0x32)) ∧
  ∀ (x : BitVec 24) (s : State), step (s.issue (0x32#8 ++ x)) =
    if x.extractLsb' 14 10 = 0 then
      exec (.colApp ⟨x.getLsbD 11, x.getLsbD 12, x.getLsbD 13⟩ (x.extractLsb' 0 11)) s
    else .next (s.raise .illegalCommand 0x32)

/-- R125: MSG_CLR sets CB_CNT to 0 and changes nothing else, CB's contents neither. -/
def Obligations.MsgClrEmptiesMessage : Prop :=
  (∀ s : State, exec .msgClr s = .next { s with cbCnt := 0 }) ∧
  ∀ (x : BitVec 24) (s : State), step (s.issue (0x33#8 ++ x)) =
    if x = 0 then exec .msgClr s else .next (s.raise .illegalCommand 0x33)

/-- R128 with the header of R126 and the order of R127: MSG_EMIT writes the transformed serialisation
from address 0: the header with the count n + 2 little-endian, then each Column's word big-endian,
Column n − 1 first; WB_LEN and RES become 8 + 2n; every other byte and all other state stay. -/
def Obligations.MsgEmitSerialisesMessage : Prop :=
  (∀ s : State, ∃ t : State, exec .msgEmit s = .next t ∧
    t = { s with wb := t.wb, wbLen := t.wbLen, res := t.res } ∧
    t.wbLen.val = 8 + 2 * s.cbCnt.val ∧ t.res = BitVec.ofNat 32 (8 + 2 * s.cbCnt.val) ∧
    (∀ (k : Nat) (h : k < 8), Memory.read t.wb k = some (0xA4 -
      (#v[0x00, 0x81, BitVec.ofNat 8 ((s.cbCnt.val + 2) % 256),
        BitVec.ofNat 8 ((s.cbCnt.val + 2) / 256), 0x00, 0x00, 0x00, 0x00] : Vector Byte 8)[k])) ∧
    (∀ (j : Nat) (w : Half), j < s.cbCnt.val → Store.read (s.cbCnt.val - 1 - j) s.cb = some w →
      Memory.read t.wb (8 + 2 * j) = some (0xA4 - w.extractLsb' 8 8) ∧
      Memory.read t.wb (9 + 2 * j) = some (0xA4 - w.extractLsb' 0 8)) ∧
    ∀ a, 8 + 2 * s.cbCnt.val ≤ a → Memory.read t.wb a = Memory.read s.wb a) ∧
  ∀ (x : BitVec 24) (s : State), step (s.issue (0x34#8 ++ x)) =
    if x = 0 then exec .msgEmit s else .next (s.raise .illegalCommand 0x34)

/-- R129, first two laws: unpacking a packed Column gives its CP value, and packing an unpacked word
loses only bits 12 and 11. -/
def Obligations.PackAndUnpackAgree : Prop :=
  (∀ (f : Colour) (p : BitVec 11),
    unpack (pack f p) = BitVec.ofBool f.bl ++ BitVec.ofBool f.g ++ BitVec.ofBool f.r ++ p) ∧
  ∀ w : Half, pack ⟨(unpack w).getLsbD 11, (unpack w).getLsbD 12, (unpack w).getLsbD 13⟩
    ((unpack w).extractLsb' 0 11) = w &&& 0xE7FF

/-- R129, third law, as the host decodes: after MSG_EMIT and XFB, WB[2] and WB[3] hold n + 2, little-endian,
n = CB_CNT, and for each Column j the two bytes at 8 + 2(n − 1 − j) are its word, big-endian. -/
def Obligations.HostRecoversMessage : Prop :=
  ∀ s : State, Inv s → ∃ t u : State, exec .msgEmit s = .next t ∧ exec .xfb t = .next u ∧
    (∃ lo hi : Byte, Memory.read u.wb 2 = some lo ∧ Memory.read u.wb 3 = some hi ∧
      lo.toNat + 256 * hi.toNat = s.cbCnt.val + 2) ∧
    ∀ j, j < s.cbCnt.val → ∃ (w : Half) (hi lo : Byte), Store.read j s.cb = some w ∧
      Memory.read u.wb (8 + 2 * (s.cbCnt.val - 1 - j)) = some hi ∧
      Memory.read u.wb (9 + 2 * (s.cbCnt.val - 1 - j)) = some lo ∧ hi ++ lo = w

/-! ### Checksum and packet family (43_packet.md) -/

/-- R140, and the laws that R151 derives from it: the checksum is the sum of the seven bytes mod 256; changing exactly one byte always
changes it, one more on one byte and one less on another cancel, and reordering the payload never
changes it. -/
def Obligations.ChecksumLaws : Prop :=
  (∀ p : Payload, (checksum p).toNat = (p[0].toNat + p[1].toNat + p[2].toNat + p[3].toNat +
    p[4].toNat + p[5].toNat + p[6].toNat) % 256) ∧
  (∀ (p : Payload) (i : Nat) (h : i < 7) (b : Byte), b ≠ p[i] →
    checksum (p.set i b h) ≠ checksum p) ∧
  (∀ p : Payload, checksum ((p.set 0 (p[0] + 1)).set 1 (p[1] - 1)) = checksum p) ∧
  ∀ p q : Payload, p.toList.Perm q.toList → checksum p = checksum q

/-- 20_memory.md R52: packet byte i is on bits [8i+7:8i] of pkt_data. -/
def Obligations.PacketDataByteOrder : Prop :=
  ∀ (p : Packet) (i : Nat) (h : i < 8), (pktData p).extractLsb' (8 * i) 8 = p[i]

/-- R142: CK_CLR clears ACC and CNT and changes nothing else. -/
def Obligations.CkClrClearsAccumulator : Prop :=
  (∀ s : State, exec .ckClr s = .next { s with acc := 0, cnt := 0 }) ∧
  ∀ (x : BitVec 24) (s : State), step (s.issue (0x40#8 ++ x)) =
    if x = 0 then exec .ckClr s else .next (s.raise .illegalCommand 0x40)

/-- R143: CK_PUSH stores its byte at PBUF[CNT], adds it to ACC mod 256 and counts it; an eighth byte
raises ProtocolError and changes nothing but STATUS. -/
def Obligations.CkPushAddsOneByte : Prop :=
  (∀ (b : Byte) (s : State), s.cnt ≠ 7 → ∃ t : State, exec (.ckPush b) s = .next t ∧
    t = { s with acc := t.acc, cnt := t.cnt, pbuf := t.pbuf } ∧
    t.cnt.toNat = s.cnt.toNat + 1 ∧ t.acc.toNat = (s.acc.toNat + b.toNat) % 256 ∧
    ∀ (i : Nat) (h : i < 7), t.pbuf[i] = if i = s.cnt.toNat then b else s.pbuf[i]) ∧
  (∀ (b : Byte) (s : State), s.cnt = 7 →
    exec (.ckPush b) s = .next (s.raise .protocolError 0x41)) ∧
  ∀ (x : BitVec 24) (s : State), step (s.issue (0x41#8 ++ x)) =
    if x.extractLsb' 8 16 = 0 then exec (.ckPush (x.extractLsb' 0 8)) s
    else .next (s.raise .illegalCommand 0x41)

/-- R144: CK_FIN with a payload of seven bytes emits PBUF ++ [ACC], puts ACC into RES and clears the
accumulator, and in a sound state ACC is the payload's checksum; with any other count it raises
ProtocolError. -/
def Obligations.CkFinEmitsPacket : Prop :=
  (∀ s : State, s.cnt = 7 → exec .ckFin s = .next { s with
    pktOut := s.pktOut ++ [s.pbuf.push s.acc], res := s.acc.setWidth 32, acc := 0, cnt := 0 }) ∧
  (∀ s : State, Inv s → s.cnt = 7 → s.acc = checksum s.pbuf) ∧
  (∀ s : State, s.cnt ≠ 7 → exec .ckFin s = .next (s.raise .protocolError 0x42)) ∧
  ∀ (x : BitVec 24) (s : State), step (s.issue (0x42#8 ++ x)) =
    if x = 0 then exec .ckFin s else .next (s.raise .illegalCommand 0x42)

/-- The bucket of a size in 0 < s < 0x2000 is max(1, bitlength(s) − 7), which R145 derives from its table. -/
def Obligations.MagnitudeIsBitLength : Prop :=
  ∀ size : Nat, 0 < size → size < 0x2000 → mag size = max 1 (Nat.log2 size + 1 - 7)

/-- R148: padlen(L) is the least multiple of 5 that is at least L, and the padded buffer is the bytes
and then 0xA4 up to that length. -/
def Obligations.PaddingLaw : Prop :=
  (∀ len : Nat, padlen len = len + (5 - len % 5) % 5 ∧ padlen len % 5 = 0 ∧ len ≤ padlen len ∧
    padlen len - len ≤ 4 ∧ ∀ m, m % 5 = 0 → len ≤ m → padlen len ≤ m) ∧
  ∀ (bytes : List Byte) (a : Nat), (padded bytes)[a]? =
    if a < bytes.length then bytes[a]?
    else if a < padlen bytes.length then some 0xA4 else none

/-- R149 with R145, R146 and the order of 60_exceptions.md R183: PK_INIT of a size in 0 < h < 0x2000
with no payload half pushed stores the initial payload in PBUF, emits its packet and puts the checksum
into RES; a bad size raises SizeOutOfRange whatever CNT is, and then CNT ≠ 0 raises ProtocolError. -/
def Obligations.PkInitEmitsInitialPacket : Prop :=
  (∀ (h : Half) (s : State), 0 < h.toNat → h.toNat < 0x2000 → s.cnt = 0 →
    ∃ m ck : Byte, m.toNat = max 1 (Nat.log2 h.toNat + 1 - 7) ∧
      ck.toNat = (0x80 + m.toNat + h.toNat % 256 + h.toNat / 256) % 256 ∧
      exec (.pkInit h) s = .next { s with
        pbuf := #v[0x40, 0x40, m, BitVec.ofNat 8 (h.toNat % 256), BitVec.ofNat 8 (h.toNat / 256), 0, 0]
        pktOut := s.pktOut ++
          [#v[0x40, 0x40, m, BitVec.ofNat 8 (h.toNat % 256), BitVec.ofNat 8 (h.toNat / 256), 0, 0, ck]]
        res := ck.setWidth 32 }) ∧
  (∀ (h : Half) (s : State), h.toNat = 0 ∨ 0x2000 ≤ h.toNat →
    exec (.pkInit h) s = .next (s.raise .sizeOutOfRange 0x43)) ∧
  (∀ (h : Half) (s : State), 0 < h.toNat → h.toNat < 0x2000 → s.cnt ≠ 0 →
    exec (.pkInit h) s = .next (s.raise .protocolError 0x43)) ∧
  ∀ (x : BitVec 24) (s : State), step (s.issue (0x43#8 ++ x)) =
    if x.extractLsb' 16 8 = 0 then exec (.pkInit (x.extractLsb' 0 16)) s
    else .next (s.raise .illegalCommand 0x43)

/-- R150 with R146 to R148 and the last law of R151: PK_FRAME emits one initial packet for the padded
length P and then P/5 data packets, packet k + 1 holding bytes 5k..5k+4 of the padded buffer, each
with its checksum; PBUF holds the last payload and RES the number of packets; WB and WB_LEN stay. A
padded length outside 0 < P < 0x2000 raises SizeOutOfRange whatever CNT is, and then CNT ≠ 0 raises
ProtocolError; no packet is then emitted. Bytes never written are sent as draws (log entry 2). -/
def Obligations.PkFrameEmitsPacketSequence : Prop :=
  (∀ (s : State) (P : Nat), P = s.wbLen.val + (5 - s.wbLen.val % 5) % 5 →
    0 < P → P < 0x2000 → s.cnt = 0 →
    ∃ (t : State) (pkts : List Packet) (m ck : Byte), exec .pkFrame s = .next t ∧
      t = { s with
        res := BitVec.ofNat 32 (1 + P / 5), pbuf := t.pbuf, pktOut := s.pktOut ++ pkts
        draws := s.draws + s.unwrittenBelow s.wbLen.val } ∧
      pkts.length = 1 + P / 5 ∧
      m.toNat = max 1 (Nat.log2 P + 1 - 7) ∧
      ck.toNat = (0x80 + m.toNat + P % 256 + P / 256) % 256 ∧
      pkts[0]? = some #v[0x40, 0x40, m, BitVec.ofNat 8 (P % 256), BitVec.ofNat 8 (P / 256), 0, 0, ck] ∧
      (∀ k, k < P / 5 → pkts[k + 1]? = some #v[0x40, 0x23, s.sentByte (5 * k), s.sentByte (5 * k + 1),
        s.sentByte (5 * k + 2), s.sentByte (5 * k + 3), s.sentByte (5 * k + 4),
        0x63 + s.sentByte (5 * k) + s.sentByte (5 * k + 1) + s.sentByte (5 * k + 2) +
          s.sentByte (5 * k + 3) + s.sentByte (5 * k + 4)]) ∧
      pkts.getLast? = some (t.pbuf.push (checksum t.pbuf))) ∧
  (∀ (s : State) (P : Nat), P = s.wbLen.val + (5 - s.wbLen.val % 5) % 5 → P = 0 ∨ 0x2000 ≤ P →
    exec .pkFrame s = .next (s.raise .sizeOutOfRange 0x44)) ∧
  (∀ (s : State) (P : Nat), P = s.wbLen.val + (5 - s.wbLen.val % 5) % 5 →
    0 < P → P < 0x2000 → s.cnt ≠ 0 →
    exec .pkFrame s = .next (s.raise .protocolError 0x44)) ∧
  ∀ (x : BitVec 24) (s : State), step (s.issue (0x44#8 ++ x)) =
    if x = 0 then exec .pkFrame s else .next (s.raise .illegalCommand 0x44)

/-! ### Pseudo-instructions (30_encoding.md R78) -/

/-- R78 with R142 to R144: from any state, the expansion of CK_PACKET emits the payload with its
checksum, whatever was half pushed before. -/
def Obligations.CkPacketEmitsPacket : Prop :=
  ∀ (p : Payload) (s : State), ∃ is : List Instr, (Pseudo.ckPacket p).expand = some is ∧
    execAll is s = .next { s with
      acc := 0, cnt := 0, pbuf := p, pktOut := s.pktOut ++ [p.push (checksum p)]
      res := (checksum p).setWidth 32 }

/-- R78 with R112: from any state, the expansion of LOAD_GLYPH loads all eight rows and changes nothing
else. -/
def Obligations.LoadGlyphLoadsAllRows : Prop :=
  ∀ (g : Vector Byte 8) (s : State), ∃ is : List Instr, (Pseudo.loadGlyph g).expand = some is ∧
    execAll is s = .next { s with gr := g }

/-- R78 with R150: where every byte below WB_LEN has been written and no payload is half pushed, the
expansion of SEND_TWICE emits one and the same packet sequence twice, the source's double send. -/
def Obligations.SendTwiceRepeatsPackets : Prop :=
  ∀ s : State, 0 < s.wbLen.val → s.wbLen.val ≤ 8190 → s.cnt = 0 →
    (∀ a, a < s.wbLen.val → (Memory.read s.wb a).isSome = true) →
    ∃ (is : List Instr) (t u : State) (pkts : List Packet),
      Pseudo.sendTwice.expand = some is ∧ execAll is s = .next u ∧ exec .pkFrame s = .next t ∧
      t.pktOut = s.pktOut ++ pkts ∧ u = { t with pktOut := s.pktOut ++ pkts ++ pkts }
end

