-- ==== Sys2Proof/Laws/Bits.lean ====
section
/-! SUPPORT. Concatenations as numbers, and the bits and values of packed and unpacked Columns. -/

namespace Sys2Proof.Machine

/-- A concatenation as a number. -/
theorem toNat_append_add {v w : Nat} (a : BitVec v) (b : BitVec w) :
    (a ++ b).toNat = a.toNat * 2 ^ w + b.toNat := by
  rw [BitVec.toNat_append, ← Nat.shiftLeft_add_eq_or_of_lt b.isLt, Nat.shiftLeft_eq]

/-- pack(R, G, Bl, P) as the sum of 42_message.md R120. -/
theorem pack_toNat (f : Colour) (p : BitVec 11) : (pack f p).toNat =
    f.g.toNat * 0x8000 + f.bl.toNat * 0x4000 + f.r.toNat * 0x2000 + p.toNat := by
  obtain ⟨r, g, bl⟩ := f
  simp only [pack, toNat_append_add, BitVec.toNat_ofBool]
  cases r <;> cases g <;> cases bl <;> simp

/-- Pixel k of a packed Column is bit k (42_message.md R120). -/
theorem pack_pixel (f : Colour) (p : BitVec 11) {k : Nat} (h : k < 11) :
    (pack f p).getLsbD k = p.getLsbD k := by
  simp only [pack]
  rw [BitVec.getLsbD_append, if_pos h]

/-- The flags and the two zero bits of a packed Column (42_message.md R120). -/
theorem pack_flags (f : Colour) (p : BitVec 11) :
    (pack f p).getLsbD 15 = f.g ∧ (pack f p).getLsbD 14 = f.bl ∧ (pack f p).getLsbD 13 = f.r ∧
      (pack f p).getLsbD 12 = false ∧ (pack f p).getLsbD 11 = false := by
  obtain ⟨r, g, bl⟩ := f
  simp only [pack, BitVec.getLsbD_append]
  cases r <;> cases g <;> cases bl <;> simp

/-- Pixel k of an unpacked word (42_message.md R121). -/
theorem unpack_pixel (w : Half) {k : Nat} (h : k < 11) : (unpack w).getLsbD k = w.getLsbD k := by
  simp only [unpack]
  rw [BitVec.getLsbD_append, if_pos h, BitVec.getLsbD_extractLsb']
  simp [h]

/-- The flags of an unpacked word (42_message.md R121). -/
theorem unpack_flags (w : Half) : (unpack w).getLsbD 11 = w.getLsbD 13 ∧
    (unpack w).getLsbD 12 = w.getLsbD 15 ∧ (unpack w).getLsbD 13 = w.getLsbD 14 := by
  simp only [unpack, BitVec.getLsbD_append, BitVec.getLsbD_extractLsb']
  simp

end Sys2Proof.Machine
end

