-- ==== Sys2Proof/Laws/State.lean ====
section
/-! SUPPORT. One lemma per field per named update of the state, so that no later proof unfolds a
record update. -/

namespace Sys2Proof.Machine

/-! ### State.setRes -/

@[simp] theorem State.setRes_res (s : State) (v : Word) : (s.setRes v).res = v := rfl
@[simp] theorem State.setRes_ecode (s : State) (v : Word) : (s.setRes v).ecode = s.ecode := rfl
@[simp] theorem State.setRes_eop (s : State) (v : Word) : (s.setRes v).eop = s.eop := rfl
@[simp] theorem State.setRes_acc (s : State) (v : Word) : (s.setRes v).acc = s.acc := rfl
@[simp] theorem State.setRes_cnt (s : State) (v : Word) : (s.setRes v).cnt = s.cnt := rfl
@[simp] theorem State.setRes_pbuf (s : State) (v : Word) : (s.setRes v).pbuf = s.pbuf := rfl
@[simp] theorem State.setRes_gr (s : State) (v : Word) : (s.setRes v).gr = s.gr := rfl
@[simp] theorem State.setRes_cbCnt (s : State) (v : Word) : (s.setRes v).cbCnt = s.cbCnt := rfl
@[simp] theorem State.setRes_cb (s : State) (v : Word) : (s.setRes v).cb = s.cb := rfl
@[simp] theorem State.setRes_wbLen (s : State) (v : Word) : (s.setRes v).wbLen = s.wbLen := rfl
@[simp] theorem State.setRes_wb (s : State) (v : Word) : (s.setRes v).wb = s.wb := rfl
@[simp] theorem State.setRes_pktOut (s : State) (v : Word) : (s.setRes v).pktOut = s.pktOut := rfl
@[simp] theorem State.setRes_inputs (s : State) (v : Word) : (s.setRes v).inputs = s.inputs := rfl
@[simp] theorem State.setRes_draws (s : State) (v : Word) : (s.setRes v).draws = s.draws := rfl

/-! ### State.setStatus -/

@[simp] theorem State.setStatus_res (s : State) (e : BitVec 4) (op : Byte) : (s.setStatus e op).res = s.res := rfl
@[simp] theorem State.setStatus_ecode (s : State) (e : BitVec 4) (op : Byte) : (s.setStatus e op).ecode = e := rfl
@[simp] theorem State.setStatus_eop (s : State) (e : BitVec 4) (op : Byte) : (s.setStatus e op).eop = op := rfl
@[simp] theorem State.setStatus_acc (s : State) (e : BitVec 4) (op : Byte) : (s.setStatus e op).acc = s.acc := rfl
@[simp] theorem State.setStatus_cnt (s : State) (e : BitVec 4) (op : Byte) : (s.setStatus e op).cnt = s.cnt := rfl
@[simp] theorem State.setStatus_pbuf (s : State) (e : BitVec 4) (op : Byte) : (s.setStatus e op).pbuf = s.pbuf := rfl
@[simp] theorem State.setStatus_gr (s : State) (e : BitVec 4) (op : Byte) : (s.setStatus e op).gr = s.gr := rfl
@[simp] theorem State.setStatus_cbCnt (s : State) (e : BitVec 4) (op : Byte) : (s.setStatus e op).cbCnt = s.cbCnt := rfl
@[simp] theorem State.setStatus_cb (s : State) (e : BitVec 4) (op : Byte) : (s.setStatus e op).cb = s.cb := rfl
@[simp] theorem State.setStatus_wbLen (s : State) (e : BitVec 4) (op : Byte) : (s.setStatus e op).wbLen = s.wbLen := rfl
@[simp] theorem State.setStatus_wb (s : State) (e : BitVec 4) (op : Byte) : (s.setStatus e op).wb = s.wb := rfl
@[simp] theorem State.setStatus_pktOut (s : State) (e : BitVec 4) (op : Byte) : (s.setStatus e op).pktOut = s.pktOut := rfl
@[simp] theorem State.setStatus_inputs (s : State) (e : BitVec 4) (op : Byte) : (s.setStatus e op).inputs = s.inputs := rfl
@[simp] theorem State.setStatus_draws (s : State) (e : BitVec 4) (op : Byte) : (s.setStatus e op).draws = s.draws := rfl

/-! ### State.drew -/

@[simp] theorem State.drew_res (s : State) : (s.drew).res = s.res := rfl
@[simp] theorem State.drew_ecode (s : State) : (s.drew).ecode = s.ecode := rfl
@[simp] theorem State.drew_eop (s : State) : (s.drew).eop = s.eop := rfl
@[simp] theorem State.drew_acc (s : State) : (s.drew).acc = s.acc := rfl
@[simp] theorem State.drew_cnt (s : State) : (s.drew).cnt = s.cnt := rfl
@[simp] theorem State.drew_pbuf (s : State) : (s.drew).pbuf = s.pbuf := rfl
@[simp] theorem State.drew_gr (s : State) : (s.drew).gr = s.gr := rfl
@[simp] theorem State.drew_cbCnt (s : State) : (s.drew).cbCnt = s.cbCnt := rfl
@[simp] theorem State.drew_cb (s : State) : (s.drew).cb = s.cb := rfl
@[simp] theorem State.drew_wbLen (s : State) : (s.drew).wbLen = s.wbLen := rfl
@[simp] theorem State.drew_wb (s : State) : (s.drew).wb = s.wb := rfl
@[simp] theorem State.drew_pktOut (s : State) : (s.drew).pktOut = s.pktOut := rfl
@[simp] theorem State.drew_inputs (s : State) : (s.drew).inputs = s.inputs := rfl
@[simp] theorem State.drew_draws (s : State) : (s.drew).draws = s.draws + 1 := rfl

/-! ### State.writeWB -/

@[simp] theorem State.writeWB_res (s : State) (a : Nat) (b : Byte) : (s.writeWB a b).res = s.res := rfl
@[simp] theorem State.writeWB_ecode (s : State) (a : Nat) (b : Byte) : (s.writeWB a b).ecode = s.ecode := rfl
@[simp] theorem State.writeWB_eop (s : State) (a : Nat) (b : Byte) : (s.writeWB a b).eop = s.eop := rfl
@[simp] theorem State.writeWB_acc (s : State) (a : Nat) (b : Byte) : (s.writeWB a b).acc = s.acc := rfl
@[simp] theorem State.writeWB_cnt (s : State) (a : Nat) (b : Byte) : (s.writeWB a b).cnt = s.cnt := rfl
@[simp] theorem State.writeWB_pbuf (s : State) (a : Nat) (b : Byte) : (s.writeWB a b).pbuf = s.pbuf := rfl
@[simp] theorem State.writeWB_gr (s : State) (a : Nat) (b : Byte) : (s.writeWB a b).gr = s.gr := rfl
@[simp] theorem State.writeWB_cbCnt (s : State) (a : Nat) (b : Byte) : (s.writeWB a b).cbCnt = s.cbCnt := rfl
@[simp] theorem State.writeWB_cb (s : State) (a : Nat) (b : Byte) : (s.writeWB a b).cb = s.cb := rfl
@[simp] theorem State.writeWB_wbLen (s : State) (a : Nat) (b : Byte) : (s.writeWB a b).wbLen = s.wbLen := rfl
@[simp] theorem State.writeWB_wb (s : State) (a : Nat) (b : Byte) : (s.writeWB a b).wb = Memory.write s.wb a b := rfl
@[simp] theorem State.writeWB_pktOut (s : State) (a : Nat) (b : Byte) : (s.writeWB a b).pktOut = s.pktOut := rfl
@[simp] theorem State.writeWB_inputs (s : State) (a : Nat) (b : Byte) : (s.writeWB a b).inputs = s.inputs := rfl
@[simp] theorem State.writeWB_draws (s : State) (a : Nat) (b : Byte) : (s.writeWB a b).draws = s.draws := rfl

/-! ### State.emit -/

@[simp] theorem State.emit_res (s : State) (p : Packet) : (s.emit p).res = s.res := rfl
@[simp] theorem State.emit_ecode (s : State) (p : Packet) : (s.emit p).ecode = s.ecode := rfl
@[simp] theorem State.emit_eop (s : State) (p : Packet) : (s.emit p).eop = s.eop := rfl
@[simp] theorem State.emit_acc (s : State) (p : Packet) : (s.emit p).acc = s.acc := rfl
@[simp] theorem State.emit_cnt (s : State) (p : Packet) : (s.emit p).cnt = s.cnt := rfl
@[simp] theorem State.emit_pbuf (s : State) (p : Packet) : (s.emit p).pbuf = s.pbuf := rfl
@[simp] theorem State.emit_gr (s : State) (p : Packet) : (s.emit p).gr = s.gr := rfl
@[simp] theorem State.emit_cbCnt (s : State) (p : Packet) : (s.emit p).cbCnt = s.cbCnt := rfl
@[simp] theorem State.emit_cb (s : State) (p : Packet) : (s.emit p).cb = s.cb := rfl
@[simp] theorem State.emit_wbLen (s : State) (p : Packet) : (s.emit p).wbLen = s.wbLen := rfl
@[simp] theorem State.emit_wb (s : State) (p : Packet) : (s.emit p).wb = s.wb := rfl
@[simp] theorem State.emit_pktOut (s : State) (p : Packet) : (s.emit p).pktOut = s.pktOut ++ [p] := rfl
@[simp] theorem State.emit_inputs (s : State) (p : Packet) : (s.emit p).inputs = s.inputs := rfl
@[simp] theorem State.emit_draws (s : State) (p : Packet) : (s.emit p).draws = s.draws := rfl

/-! ### State.emitPayload -/

@[simp] theorem State.emitPayload_res (s : State) (p : Payload) : (s.emitPayload p).res = s.res := rfl
@[simp] theorem State.emitPayload_ecode (s : State) (p : Payload) : (s.emitPayload p).ecode = s.ecode := rfl
@[simp] theorem State.emitPayload_eop (s : State) (p : Payload) : (s.emitPayload p).eop = s.eop := rfl
@[simp] theorem State.emitPayload_acc (s : State) (p : Payload) : (s.emitPayload p).acc = s.acc := rfl
@[simp] theorem State.emitPayload_cnt (s : State) (p : Payload) : (s.emitPayload p).cnt = s.cnt := rfl
@[simp] theorem State.emitPayload_pbuf (s : State) (p : Payload) : (s.emitPayload p).pbuf = p := rfl
@[simp] theorem State.emitPayload_gr (s : State) (p : Payload) : (s.emitPayload p).gr = s.gr := rfl
@[simp] theorem State.emitPayload_cbCnt (s : State) (p : Payload) : (s.emitPayload p).cbCnt = s.cbCnt := rfl
@[simp] theorem State.emitPayload_cb (s : State) (p : Payload) : (s.emitPayload p).cb = s.cb := rfl
@[simp] theorem State.emitPayload_wbLen (s : State) (p : Payload) : (s.emitPayload p).wbLen = s.wbLen := rfl
@[simp] theorem State.emitPayload_wb (s : State) (p : Payload) : (s.emitPayload p).wb = s.wb := rfl
@[simp] theorem State.emitPayload_pktOut (s : State) (p : Payload) : (s.emitPayload p).pktOut = s.pktOut ++ [packetOf p] := rfl
@[simp] theorem State.emitPayload_inputs (s : State) (p : Payload) : (s.emitPayload p).inputs = s.inputs := rfl
@[simp] theorem State.emitPayload_draws (s : State) (p : Payload) : (s.emitPayload p).draws = s.draws := rfl

/-! ### State.applyReset -/

@[simp] theorem State.applyReset_res (s : State) : (s.applyReset).res = State.reset.res := rfl
@[simp] theorem State.applyReset_ecode (s : State) : (s.applyReset).ecode = State.reset.ecode := rfl
@[simp] theorem State.applyReset_eop (s : State) : (s.applyReset).eop = State.reset.eop := rfl
@[simp] theorem State.applyReset_acc (s : State) : (s.applyReset).acc = State.reset.acc := rfl
@[simp] theorem State.applyReset_cnt (s : State) : (s.applyReset).cnt = State.reset.cnt := rfl
@[simp] theorem State.applyReset_pbuf (s : State) : (s.applyReset).pbuf = State.reset.pbuf := rfl
@[simp] theorem State.applyReset_gr (s : State) : (s.applyReset).gr = State.reset.gr := rfl
@[simp] theorem State.applyReset_cbCnt (s : State) : (s.applyReset).cbCnt = State.reset.cbCnt := rfl
@[simp] theorem State.applyReset_cb (s : State) : (s.applyReset).cb = State.reset.cb := rfl
@[simp] theorem State.applyReset_wbLen (s : State) : (s.applyReset).wbLen = State.reset.wbLen := rfl
@[simp] theorem State.applyReset_wb (s : State) : (s.applyReset).wb = State.reset.wb := rfl
@[simp] theorem State.applyReset_pktOut (s : State) : (s.applyReset).pktOut = s.pktOut := rfl
@[simp] theorem State.applyReset_inputs (s : State) : (s.applyReset).inputs = s.inputs := rfl
@[simp] theorem State.applyReset_draws (s : State) : (s.applyReset).draws = s.draws := rfl

/-! ### State.issue -/

@[simp] theorem State.issue_res (s : State) (w : Word) : (s.issue w).res = s.res := rfl
@[simp] theorem State.issue_ecode (s : State) (w : Word) : (s.issue w).ecode = s.ecode := rfl
@[simp] theorem State.issue_eop (s : State) (w : Word) : (s.issue w).eop = s.eop := rfl
@[simp] theorem State.issue_acc (s : State) (w : Word) : (s.issue w).acc = s.acc := rfl
@[simp] theorem State.issue_cnt (s : State) (w : Word) : (s.issue w).cnt = s.cnt := rfl
@[simp] theorem State.issue_pbuf (s : State) (w : Word) : (s.issue w).pbuf = s.pbuf := rfl
@[simp] theorem State.issue_gr (s : State) (w : Word) : (s.issue w).gr = s.gr := rfl
@[simp] theorem State.issue_cbCnt (s : State) (w : Word) : (s.issue w).cbCnt = s.cbCnt := rfl
@[simp] theorem State.issue_cb (s : State) (w : Word) : (s.issue w).cb = s.cb := rfl
@[simp] theorem State.issue_wbLen (s : State) (w : Word) : (s.issue w).wbLen = s.wbLen := rfl
@[simp] theorem State.issue_wb (s : State) (w : Word) : (s.issue w).wb = s.wb := rfl
@[simp] theorem State.issue_pktOut (s : State) (w : Word) : (s.issue w).pktOut = s.pktOut := rfl
@[simp] theorem State.issue_inputs (s : State) (w : Word) : (s.issue w).inputs = .command w :: s.inputs := rfl
@[simp] theorem State.issue_draws (s : State) (w : Word) : (s.issue w).draws = s.draws := rfl

end Sys2Proof.Machine
end

