-- ==== Sys2Proof/Laws/Store.lean ====
section
/-! SUPPORT. The laws of the storage arrays: what a read gives after a write, that every write keeps
the canonical form, and that canonical arrays with equal reads are equal. -/

namespace Sys2Proof.Machine

variable {α : Type}

@[simp] theorem Store.read_nil (a : Nat) : Store.read a ([] : Store α) = none := rfl

theorem Store.read_write_same (a : Nat) (x : α) (m : Store α) :
    Store.read a (Store.write a x m) = some x := by
  induction m with
  | nil => simp [Store.write, Store.read]
  | cons c rest ih =>
    obtain ⟨k, v⟩ := c
    simp only [Store.write]
    split
    · simp [Store.read]
    · split
      · simp [Store.read]
      · next h => simp [Store.read, h, ih]

theorem Store.read_write_other {a b : Nat} (h : b ≠ a) (x : α) (m : Store α) :
    Store.read b (Store.write a x m) = Store.read b m := by
  induction m with
  | nil => simp [Store.write, Store.read, h, Store.unlisted]
  | cons c rest ih =>
    obtain ⟨k, v⟩ := c
    simp only [Store.write]
    split
    · simp [Store.read, h]
    · split
      · next e => subst e; simp [Store.read, h]
      · simp [Store.read, ih]

theorem Store.read_write (a b : Nat) (x : α) (m : Store α) :
    Store.read b (Store.write a x m) = if b = a then some x else Store.read b m := by
  split
  · next h => subst h; exact Store.read_write_same b x m
  · next h => exact Store.read_write_other h x m

/-- What every index reads as after a block has been written. -/
theorem Store.read_writeBlock (a b : Nat) (xs : List α) (m : Store α) :
    Store.read b (Store.writeBlock a xs m) =
      if a ≤ b then (xs[b - a]?).or (Store.read b m) else Store.read b m := by
  induction xs generalizing a m with
  | nil => simp [Store.writeBlock]
  | cons x xs ih =>
    simp only [Store.writeBlock, ih, Store.read_write]
    rcases Nat.lt_trichotomy a b with h | h | h
    · have h1 : a + 1 ≤ b := h
      have h2 : b - a = b - (a + 1) + 1 := by omega
      have h3 : b ≠ a := by omega
      simp [h1, Nat.le_of_lt h, h2, h3]
    · subst h
      simp
    · have h1 : ¬ a + 1 ≤ b := by omega
      have h2 : ¬ a ≤ b := by omega
      have h3 : b ≠ a := by omega
      simp [h1, h2, h3]

theorem Store.read_writeBlock_inside {a b : Nat} {xs : List α} (h₁ : a ≤ b) (h₂ : b < a + xs.length)
    (m : Store α) : Store.read b (Store.writeBlock a xs m) = some (xs[b - a]'(by omega)) := by
  rw [Store.read_writeBlock, if_pos h₁, List.getElem?_eq_getElem (by omega)]
  rfl

theorem Store.read_writeBlock_outside {a b : Nat} {xs : List α} (h : b < a ∨ a + xs.length ≤ b)
    (m : Store α) : Store.read b (Store.writeBlock a xs m) = Store.read b m := by
  rw [Store.read_writeBlock]
  split
  · rw [List.getElem?_eq_none (by omega)]
    rfl
  · rfl

/-! ### The canonical form -/

theorem Store.mem_write {a : Nat} {x : α} {m : Store α} {c : Nat × α} (h : c ∈ Store.write a x m) :
    c = (a, x) ∨ c ∈ m := by
  induction m with
  | nil => simpa [Store.write] using h
  | cons d rest ih =>
    obtain ⟨k, v⟩ := d
    simp only [Store.write] at h
    split at h
    · simpa using h
    · split at h
      · simp only [List.mem_cons] at h ⊢
        rcases h with h | h
        · exact .inl h
        · exact .inr (.inr h)
      · simp only [List.mem_cons] at h ⊢
        rcases h with h | h
        · exact .inr (.inl h)
        · rcases ih h with h | h
          · exact .inl h
          · exact .inr (.inr h)

/-- A write keeps the canonical form. -/
theorem Store.wf_write {cap a : Nat} (ha : a < cap) (x : α) {m : Store α} (h : Store.wf cap m) :
    Store.wf cap (Store.write a x m) := by
  constructor
  · have hp := h.1
    clear h
    induction m with
    | nil => simp [Store.write]
    | cons d rest ih =>
      obtain ⟨k, v⟩ := d
      rw [List.pairwise_cons] at hp
      simp only [Store.write]
      split
      · next hlt =>
        refine List.pairwise_cons.2 ⟨fun c hc => ?_, List.pairwise_cons.2 hp⟩
        rcases List.mem_cons.1 hc with rfl | hc
        · exact hlt
        · exact Nat.lt_trans hlt (hp.1 c hc)
      · split
        · next e => subst e; exact List.pairwise_cons.2 hp
        · next h1 h2 =>
          refine List.pairwise_cons.2 ⟨fun c hc => ?_, ih hp.2⟩
          rcases Store.mem_write hc with rfl | hc
          · change k < a
            omega
          · exact hp.1 c hc
  · intro c hc
    rcases Store.mem_write hc with rfl | hc
    · exact ha
    · exact h.2 c hc

/-- Writing a block that fits keeps the canonical form. -/
theorem Store.wf_writeBlock {cap a : Nat} {xs : List α} (ha : a + xs.length ≤ cap) {m : Store α}
    (h : Store.wf cap m) : Store.wf cap (Store.writeBlock a xs m) := by
  induction xs generalizing a m with
  | nil => exact h
  | cons x xs ih =>
    simp only [List.length_cons] at ha
    exact ih (by omega) (Store.wf_write (by omega) x h)

theorem Store.wf_nil (cap : Nat) : Store.wf cap ([] : Store α) := by simp [Store.wf]

theorem Store.read_none_of_lt {m : Store α} {a : Nat} (h : ∀ c ∈ m, a < c.1) :
    Store.read a m = none := by
  induction m with
  | nil => rfl
  | cons d rest ih =>
    obtain ⟨k, v⟩ := d
    have h1 : a < k := h (k, v) (by simp)
    have h2 : a ≠ k := by omega
    simp [Store.read, h2, ih fun c hc => h c (by simp [hc])]

/-- Canonical arrays that read equal everywhere are equal data. -/
theorem Store.ext_of_read {cap : Nat} {m n : Store α} (hm : Store.wf cap m) (hn : Store.wf cap n)
    (h : ∀ a, Store.read a m = Store.read a n) : m = n := by
  have pm := hm.1
  have pn := hn.1
  clear hm hn
  induction m generalizing n with
  | nil =>
    cases n with
    | nil => rfl
    | cons d rest => simpa [Store.read, Store.unlisted] using h d.1
  | cons c ms ih =>
    obtain ⟨k, v⟩ := c
    cases n with
    | nil => simpa [Store.read, Store.unlisted] using h k
    | cons d ns =>
      obtain ⟨j, w⟩ := d
      rw [List.pairwise_cons] at pm pn
      have hk := h k
      have hj := h j
      have hkj : k = j := by
        by_contra hne
        rcases Nat.lt_or_gt_of_ne hne with hlt | hlt
        · have : Store.read k ns = none :=
            Store.read_none_of_lt fun c hc => Nat.lt_trans hlt (pn.1 c hc)
          simp [Store.read, hne, this] at hk
        · have : Store.read j ms = none :=
            Store.read_none_of_lt fun c hc => Nat.lt_trans hlt (pm.1 c hc)
          simp [Store.read, Ne.symm hne, this] at hj
      subst hkj
      have hv : v = w := by simpa [Store.read] using hk
      subst hv
      congr 1
      refine ih (fun a => ?_) pm.2 pn.2
      by_cases ha : a = k
      · subst ha
        rw [Store.read_none_of_lt pm.1, Store.read_none_of_lt pn.1]
      · simpa [Store.read, ha] using h a

/-! ### The wire buffer -/

theorem Memory.read_write (m : Memory) (a b : Nat) (x : Byte) :
    Memory.read (Memory.write m a x) b = if b = a then some x else Memory.read m b :=
  Store.read_write a b x m

theorem Memory.wf_write {m : Memory} {a : Nat} (ha : a < Config.wbCap) (x : Byte)
    (h : Memory.wf m) : Memory.wf (Memory.write m a x) :=
  Store.wf_write ha x h

end Sys2Proof.Machine
end

