-- ==== Sys2Proof/Laws/Ops.lean ====
section
/-! SUPPORT. One lemma per shared operation that says once everything it can do; later proofs cite
it instead of unfolding the operation. -/

namespace Sys2Proof.Machine

/-! ### Errors -/

/-- What raising an error does: the first error is kept (60_exceptions.md R182, R186). -/
theorem State.raise_cases (e : ErrorKind) (op : Byte) (s : State) :
    (s.ecode = 0 ∧ s.raise e op = s.setStatus e.code op) ∨ (s.ecode ≠ 0 ∧ s.raise e op = s) := by
  unfold State.raise
  split
  · next h => exact .inl ⟨h, rfl⟩
  · next h => exact .inr ⟨h, rfl⟩

/-- Raising an error changes STATUS alone. -/
theorem State.raise_eq (e : ErrorKind) (op : Byte) (s : State) :
    s.raise e op = { s with ecode := (s.raise e op).ecode, eop := (s.raise e op).eop } := by
  rcases s.raise_cases e op with ⟨-, h⟩ | ⟨-, h⟩
  · rw [h]; rfl
  · rw [h]

theorem fail_eq (e : ErrorKind) (op : Byte) (s : State) : fail e op s = .next (s.raise e op) := rfl

theorem ErrorKind.code_ne_zero (e : ErrorKind) : e.code ≠ 0 := by cases e <;> decide

theorem ErrorKind.code_le (e : ErrorKind) : e.code.toNat ≤ 4 := by cases e <;> decide

/-! ### Reading the wire buffer -/

/-- What reading one byte does: the byte and no change, or a draw (10_state.md R28). -/
theorem State.readWB_cases (a : Nat) (s : State) :
    (∃ b, Memory.read s.wb a = some b ∧ s.readWB a = (b, s)) ∨
      (Memory.read s.wb a = none ∧ s.readWB a = (Config.wbDraw s.draws, s.drew)) := by
  unfold State.readWB
  split
  · next b h => exact .inl ⟨b, h, rfl⟩
  · next h => exact .inr ⟨h, rfl⟩

/-- A read changes nothing but the count of draws (20_memory.md R57). -/
theorem State.readWB_state (a : Nat) (s : State) :
    (s.readWB a).2 = { s with draws := (s.readWB a).2.draws } := by
  rcases s.readWB_cases a with ⟨b, -, h⟩ | ⟨-, h⟩
  · rw [h]
  · rw [h]; rfl

@[simp] theorem State.readWB_wb (a : Nat) (s : State) : (s.readWB a).2.wb = s.wb := by
  rw [s.readWB_state a]

/-- The byte and the draws of a read, in one equation each. -/
theorem State.readWB_value (a : Nat) (s : State) :
    (s.readWB a).1 = (Memory.read s.wb a).getD (Config.wbDraw s.draws) := by
  rcases s.readWB_cases a with ⟨b, h, e⟩ | ⟨h, e⟩ <;> rw [e, h] <;> rfl

theorem State.readWB_draws (a : Nat) (s : State) :
    (s.readWB a).2.draws = s.draws + if (Memory.read s.wb a).isNone then 1 else 0 := by
  rcases s.readWB_cases a with ⟨b, h, e⟩ | ⟨h, e⟩ <;> rw [e, h] <;> rfl

/-- Reading a block changes nothing but the count of draws. -/
theorem State.readBlock_state (a n : Nat) (s : State) :
    (s.readBlock a n).2 = { s with draws := (s.readBlock a n).2.draws } := by
  induction n generalizing a s with
  | zero => rfl
  | succ n ih =>
    simp only [State.readBlock]
    rw [ih (a + 1) (s.readWB a).2, s.readWB_state a]

@[simp] theorem State.readBlock_length (a n : Nat) (s : State) :
    (s.readBlock a n).1.length = n := by
  induction n generalizing a s with
  | zero => rfl
  | succ n ih => simp [State.readBlock, ih]

/-! ### Appending Columns -/

/-- What appending does: all the words and the count, or nothing where they do not fit. -/
theorem State.appendColumns_cases (ws : List Half) (s : State) :
    (s.cbCnt.val + ws.length ≤ Config.colCap ∧ ∃ s', s.appendColumns ws = some s' ∧
        s'.cbCnt.val = s.cbCnt.val + ws.length ∧
        s'.cb = Store.writeBlock s.cbCnt.val ws s.cb ∧
        s' = { s with cb := s'.cb, cbCnt := s'.cbCnt }) ∨
      (Config.colCap < s.cbCnt.val + ws.length ∧ s.appendColumns ws = none) := by
  unfold State.appendColumns
  split
  · next h => exact .inl ⟨h, _, rfl, rfl, rfl, rfl⟩
  · next h => exact .inr ⟨by omega, rfl⟩

/-! ### Emission -/

/-- Emitting payloads appends their packets in order and leaves the last payload in PBUF. -/
theorem State.emitPayloads_eq (ps : List Payload) (s : State) :
    s.emitPayloads ps =
      { s with pbuf := ps.getLastD s.pbuf, pktOut := s.pktOut ++ ps.map packetOf } := by
  induction ps generalizing s with
  | nil => simp [State.emitPayloads]
  | cons p ps ih =>
    rw [State.emitPayloads, ih]
    cases ps <;> simp [State.emitPayload, List.getLastD]

/-! ### The transform over a range -/

/-- XFB's loop changes nothing but WB and the count of draws. -/
theorem State.transformFrom_state (a n : Nat) (s : State) :
    s.transformFrom a n =
      { s with wb := (s.transformFrom a n).wb, draws := (s.transformFrom a n).draws } := by
  induction n generalizing a s with
  | zero => rfl
  | succ n ih =>
    simp only [State.transformFrom]
    rw [ih (a + 1) (s.transformByte a)]
    simp only [State.transformByte, State.writeWB]
    rw [s.readWB_state a]

end Sys2Proof.Machine
end

