-- ==== Sys2Proof/Laws/Blocks.lean ====
section
/-! SUPPORT. What the commands that read or transform a range of the wire buffer do, byte by byte:
XFB's loop and PK_FRAME's reading, with the numbering of the draws; and the packet sequence that
PK_FRAME makes of the bytes it reads. -/

namespace Sys2Proof.Machine

/-- How many of the `n` addresses from `a` up no command has written. -/
def unwrittenIn (m : Memory) (a n : Nat) : Nat :=
  (List.range n).countP fun j => (Memory.read m (a + j)).isNone

@[simp] theorem unwrittenIn_zero (m : Memory) (a : Nat) : unwrittenIn m a 0 = 0 := rfl

theorem unwrittenIn_succ (m : Memory) (a n : Nat) : unwrittenIn m a (n + 1) =
    (if (Memory.read m a).isNone then 1 else 0) + unwrittenIn m (a + 1) n := by
  unfold unwrittenIn
  rw [List.range_succ_eq_map, List.countP_cons, List.countP_map, Nat.add_comm]
  congr 1
  apply List.countP_congr
  intro j _
  have : a + (j + 1) = a + 1 + j := by omega
  simp [this]

theorem unwrittenBelow_eq (s : State) (a : Nat) : s.unwrittenBelow a = unwrittenIn s.wb 0 a := by
  simp [State.unwrittenBelow, unwrittenIn]

/-- Where every byte of a range has been written, reading it draws nothing. -/
theorem unwrittenIn_eq_zero {m : Memory} {a n : Nat}
    (h : ∀ k, a ≤ k → k < a + n → (Memory.read m k).isSome = true) : unwrittenIn m a n = 0 := by
  unfold unwrittenIn
  rw [List.countP_eq_zero]
  intro j hj
  have h1 := h (a + j) (by omega) (by have := List.mem_range.1 hj; omega)
  cases hr : Memory.read m (a + j) with
  | none => rw [hr] at h1; exact absurd h1 (by decide)
  | some b => simp

/-! ### The transform over a range -/

theorem State.transformByte_read (a k : Nat) (s : State) :
    Memory.read (s.transformByte a).wb k =
      if k = a then some (byteTransform ((Memory.read s.wb a).getD (Config.wbDraw s.draws)))
      else Memory.read s.wb k := by
  simp only [State.transformByte, State.writeWB_wb, State.readWB_wb, Memory.read_write,
    State.readWB_value]

theorem State.transformByte_draws (a : Nat) (s : State) : (s.transformByte a).draws =
    s.draws + if (Memory.read s.wb a).isNone then 1 else 0 := by
  simp only [State.transformByte, State.writeWB_draws, State.readWB_draws]

theorem unwrittenIn_transformByte (a n : Nat) (s : State) :
    unwrittenIn (s.transformByte a).wb (a + 1) n = unwrittenIn s.wb (a + 1) n := by
  unfold unwrittenIn
  apply List.countP_congr
  intro j _
  have : a + 1 + j ≠ a := by omega
  rw [State.transformByte_read, if_neg this]

/-- How many draws XFB's loop makes: one for each byte never written. -/
theorem State.transformFrom_draws (a n : Nat) (s : State) :
    (s.transformFrom a n).draws = s.draws + unwrittenIn s.wb a n := by
  induction n generalizing a s with
  | zero => rfl
  | succ n ih =>
    rw [State.transformFrom, ih, State.transformByte_draws, unwrittenIn_transformByte,
      unwrittenIn_succ, Nat.add_assoc]

/-- What every byte of WB holds after XFB's loop (40_transform.md R102). -/
theorem State.transformFrom_read (a n b : Nat) (s : State) :
    Memory.read (s.transformFrom a n).wb b =
      if a ≤ b ∧ b < a + n then
        some (byteTransform ((Memory.read s.wb b).getD
          (Config.wbDraw (s.draws + unwrittenIn s.wb a (b - a)))))
      else Memory.read s.wb b := by
  induction n generalizing a s with
  | zero =>
    have h : ¬ (a ≤ b ∧ b < a + 0) := by omega
    rw [if_neg h]
    rfl
  | succ n ih =>
    rw [State.transformFrom, ih]
    rcases Nat.lt_trichotomy a b with h | h | h
    · have h1 : b ≠ a := by omega
      have h2 : b - a = b - (a + 1) + 1 := by omega
      rw [State.transformByte_read, if_neg h1, State.transformByte_draws, unwrittenIn_transformByte,
        h2, unwrittenIn_succ, ← Nat.add_assoc s.draws]
      by_cases h3 : b < a + (n + 1)
      · rw [if_pos (show a + 1 ≤ b ∧ b < a + 1 + n by omega),
          if_pos (show a ≤ b ∧ b < a + (n + 1) by omega)]
      · rw [if_neg (show ¬ (a + 1 ≤ b ∧ b < a + 1 + n) by omega),
          if_neg (show ¬ (a ≤ b ∧ b < a + (n + 1)) by omega)]
    · subst h
      rw [if_neg (by omega), if_pos (by omega), State.transformByte_read, if_pos rfl]
      simp
    · have h1 : b ≠ a := by omega
      rw [if_neg (by omega), if_neg (by omega), State.transformByte_read, if_neg h1]

/-- XFB's loop keeps the wire buffer canonical. -/
theorem State.wf_transformFrom {a n : Nat} (h : a + n ≤ Config.wbCap) {s : State}
    (hw : Memory.wf s.wb) : Memory.wf (s.transformFrom a n).wb := by
  induction n generalizing a s with
  | zero => exact hw
  | succ n ih =>
    refine ih (by omega) ?_
    simp only [State.transformByte, State.writeWB_wb, State.readWB_wb]
    exact Memory.wf_write (by omega) _ hw

/-! ### Reading a range -/

/-- How many draws reading a range makes. -/
theorem State.readBlock_draws (a n : Nat) (s : State) :
    (s.readBlock a n).2.draws = s.draws + unwrittenIn s.wb a n := by
  induction n generalizing a s with
  | zero => rfl
  | succ n ih =>
    rw [State.readBlock, ih, State.readWB_draws, State.readWB_wb, unwrittenIn_succ, Nat.add_assoc]

/-- The k-th byte of a range that is read (10_state.md R28). -/
theorem State.readBlock_getElem (a n k : Nat) (s : State) (h : k < n) :
    (s.readBlock a n).1[k]? = some ((Memory.read s.wb (a + k)).getD
      (Config.wbDraw (s.draws + unwrittenIn s.wb a k))) := by
  induction n generalizing a k s with
  | zero => omega
  | succ n ih =>
    rw [State.readBlock]
    cases k with
    | zero => simp [State.readWB_value]
    | succ k =>
      have h1 : a + 1 + k = a + (k + 1) := by omega
      rw [List.getElem?_cons_succ, ih (a + 1) k _ (by omega), State.readWB_wb, State.readWB_draws,
        unwrittenIn_succ, h1, Nat.add_assoc]

/-! ### The packet sequence -/

theorem dataPayloads_length (bs : List Byte) : (dataPayloads bs).length = bs.length / 5 := by
  fun_induction dataPayloads bs with
  | case1 c0 c1 c2 c3 c4 rest ih => simp only [List.length_cons, ih]; omega
  | case2 bs h =>
    match bs, h with
    | [], _ => rfl
    | [_], _ => simp
    | [_, _], _ => simp
    | [_, _, _], _ => simp
    | [_, _, _, _], _ => simp
    | c0 :: c1 :: c2 :: c3 :: c4 :: rest, h => exact absurd rfl (h c0 c1 c2 c3 c4 rest)

/-- Payload k holds bytes 5k..5k+4 (43_packet.md R147, R150). -/
theorem dataPayloads_getElem (bs : List Byte) (f : Nat → Byte)
    (h : ∀ a, a < bs.length → bs[a]? = some (f a)) (k : Nat) (hk : k < bs.length / 5) :
    (dataPayloads bs)[k]? = some (dataPayload (f (5 * k)) (f (5 * k + 1)) (f (5 * k + 2))
      (f (5 * k + 3)) (f (5 * k + 4))) := by
  fun_induction dataPayloads bs generalizing f k with
  | case1 c0 c1 c2 c3 c4 rest ih =>
    simp only [List.length_cons] at hk h
    cases k with
    | zero =>
      have h0 := h 0 (by omega)
      have h1 := h 1 (by omega)
      have h2 := h 2 (by omega)
      have h3 := h 3 (by omega)
      have h4 := h 4 (by omega)
      simp only [List.getElem?_cons_zero, List.getElem?_cons_succ, Option.some.injEq] at h0 h1 h2 h3 h4
      simp [h0, h1, h2, h3, h4]
    | succ k =>
      have e := ih (fun a => f (a + 5)) (fun a ha => by
        have := h (a + 5) (by omega)
        simpa using this) k (by omega)
      have g : ∀ j, 5 * k + j + 5 = 5 * (k + 1) + j := by omega
      have g0 : 5 * k + 5 = 5 * (k + 1) := by omega
      simp only [g, g0] at e
      rw [List.getElem?_cons_succ, e]
  | case2 bs hb =>
    have hl := dataPayloads_length bs
    rw [dataPayloads] at hl
    · simp at hl
      omega
    · exact hb

/-- pad(L)[a] (43_packet.md R148). -/
theorem padded_getElem (bytes : List Byte) (a : Nat) : (padded bytes)[a]? =
    if a < bytes.length then bytes[a]?
    else if a < padlen bytes.length then some 0xA4 else none := by
  unfold padded
  rw [List.getElem?_append]
  split
  · rfl
  · rw [List.getElem?_replicate]
    have : bytes.length ≤ padlen bytes.length := by unfold padlen; omega
    by_cases h : a < padlen bytes.length
    · rw [if_pos (by omega), if_pos h]
      rfl
    · rw [if_neg (by omega), if_neg h]

theorem padded_length (bytes : List Byte) : (padded bytes).length = padlen bytes.length := by
  have : bytes.length ≤ padlen bytes.length := by unfold padlen; omega
  simp only [padded, List.length_append, List.length_replicate]
  omega

theorem padlen_mod (len : Nat) : padlen len % 5 = 0 := by
  unfold padlen chunkLen
  omega

end Sys2Proof.Machine
end

