-- ==== Sys2Proof/Laws/Decode.lean ====
section
/-! SUPPORT. The decoder on a word written as opcode byte and operand bits, and the fields of such a
word; every statement about words cites these instead of unfolding the decoder. -/

namespace Sys2Proof

/-! ### Fields of `op ++ x` -/

section fields
variable (op : Byte) (x : BitVec 24)

/-- Bit i of a word written as opcode byte and operand bits. -/
theorem getLsbD_word (i : Nat) :
    (op ++ x : Word).getLsbD i = if i < 24 then x.getLsbD i else op.getLsbD (i - 24) :=
  BitVec.getLsbD_append

/-- Operand fields lie below bit 24. -/
theorem extract_operand {start len : Nat} (h : start + len ≤ 24) :
    (op ++ x : Word).extractLsb' start len = x.extractLsb' start len := by
  apply BitVec.eq_of_getLsbD_eq
  intro i hi
  have : start + i < 24 := by omega
  rw [BitVec.getLsbD_extractLsb', BitVec.getLsbD_extractLsb', getLsbD_word, if_pos this]

theorem getLsbD_operand {i : Nat} (h : i < 24) : (op ++ x : Word).getLsbD i = x.getLsbD i := by
  rw [getLsbD_word, if_pos h]

@[simp] theorem opcodeField_append : opcodeField (op ++ x) = op := by
  apply BitVec.eq_of_getLsbD_eq
  intro i hi
  have h1 : ¬ 24 + i < 24 := by omega
  have h2 : 24 + i - 24 = i := by omega
  rw [opcodeField, BitVec.getLsbD_extractLsb', getLsbD_word, if_neg h1, h2]
  simp [hi]

@[simp] theorem fieldB_append : fieldB (op ++ x) = x.extractLsb' 0 8 :=
  extract_operand op x (by decide)

@[simp] theorem fieldSel_append : fieldSel (op ++ x) = x.extractLsb' 0 4 :=
  extract_operand op x (by decide)

@[simp] theorem fieldAHigh_append : fieldAHigh (op ++ x) = x.extractLsb' 8 13 :=
  extract_operand op x (by decide)

@[simp] theorem fieldALow_append : fieldALow (op ++ x) = x.extractLsb' 0 13 :=
  extract_operand op x (by decide)

@[simp] theorem fieldN_append : fieldN (op ++ x) = x.extractLsb' 0 14 :=
  extract_operand op x (by decide)

@[simp] theorem fieldI_append : fieldI (op ++ x) = x.extractLsb' 8 3 :=
  extract_operand op x (by decide)

@[simp] theorem fieldP_append : fieldP (op ++ x) = x.extractLsb' 0 11 :=
  extract_operand op x (by decide)

@[simp] theorem fieldH_append : fieldH (op ++ x) = x.extractLsb' 0 16 :=
  extract_operand op x (by decide)

@[simp] theorem fieldFlags_append :
    fieldFlags (op ++ x) = ⟨x.getLsbD 11, x.getLsbD 12, x.getLsbD 13⟩ := by
  rw [fieldFlags, getLsbD_operand op x (by decide), getLsbD_operand op x (by decide),
    getLsbD_operand op x (by decide)]

end fields

/-- Every word is its opcode byte and its operand bits. -/
theorem word_split (w : Word) : w = opcodeField w ++ w.extractLsb' 0 24 := by
  apply BitVec.eq_of_getLsbD_eq
  intro i hi
  rw [getLsbD_word, opcodeField]
  split
  · next h => simp [h]
  · next h =>
    have h1 : 24 + (i - 24) = i := by omega
    have h2 : i - 24 < 8 := by omega
    simp [h1, h2]

/-! ### Masks -/

/-- Every mask of the map covers the opcode byte: a row accepts a word when the opcodes agree and the
operand bits agree under the rest of the mask. -/
theorem accepts_split (v op : Byte) (mx vx x : BitVec 24) :
    ((op ++ x : Word) &&& (0xFF#8 ++ mx : Word) == (v ++ vx : Word)) =
      (op == v && (x &&& mx == vx)) := by
  have h : ((op ++ x : Word) &&& (0xFF#8 ++ mx : Word)) = (op ++ (x &&& mx) : Word) := by
    apply BitVec.eq_of_getLsbD_eq
    intro i hi
    rw [BitVec.getLsbD_and, getLsbD_word, getLsbD_word, getLsbD_word]
    split
    · rw [BitVec.getLsbD_and]
    · have h8 : ∀ j : Fin 8, (0xFF#8).getLsbD j.val = true := by decide
      rw [h8 ⟨i - 24, by omega⟩, Bool.and_true]
  rw [h, Bool.eq_iff_iff]
  simp only [beq_iff_eq, Bool.and_eq_true]
  constructor
  · intro e
    have e1 := congrArg (fun w : Word => w.extractLsb' 24 8) e
    have e2 := congrArg (fun w : Word => w.extractLsb' 0 24) e
    have f1 : ∀ (a : Byte) (b : BitVec 24), (a ++ b : Word).extractLsb' 24 8 = a :=
      fun a b => opcodeField_append a b
    have f2 : ∀ (a : Byte) (b : BitVec 24), (a ++ b : Word).extractLsb' 0 24 = b := by
      intro a b
      rw [extract_operand a b (by decide)]
      ext i hi
      simp
    simp only [f1, f2] at e1 e2
    exact ⟨e1, e2⟩
  · rintro ⟨rfl, rfl⟩
    rfl

/-- Masking with the bits from `lo` up leaves zero exactly when the field from `lo` up is zero. -/
theorem mask_high {lo len : Nat} (h : lo + len = 24) (m : BitVec 24)
    (hm : ∀ i : Fin 24, m.getLsbD i.val = decide (lo ≤ i.val)) (x : BitVec 24) :
    (x &&& m == 0) = decide (x.extractLsb' lo len = 0) := by
  rw [Bool.eq_iff_iff]
  simp only [beq_iff_eq, decide_eq_true_eq]
  constructor
  · intro e
    ext i hi
    have := congrArg (fun w : BitVec 24 => w.getLsbD (lo + i)) e
    have hlt : lo + i < 24 := by omega
    have h2 := hm ⟨lo + i, hlt⟩
    simp only [Nat.le_add_right, decide_true] at h2
    simp only [BitVec.getLsbD_and, h2, Bool.and_true] at this
    simpa using this
  · intro e
    ext i hi
    have h2 := hm ⟨i, hi⟩
    simp only at h2
    rw [BitVec.getElem_and, ← BitVec.getLsbD_eq_getElem (x := m) hi, h2]
    by_cases hlo : lo ≤ i
    · have := congrArg (fun w : BitVec len => w.getLsbD (i - lo)) e
      have hl : i - lo < len := by omega
      have hs : lo + (i - lo) = i := by omega
      simp only [BitVec.getLsbD_extractLsb', hl, decide_true, Bool.true_and, hs] at this
      rw [BitVec.getLsbD_eq_getElem hi] at this
      simp [this]
    · simp [hlo]

theorem mask_4 (x : BitVec 24) : (x &&& 0xFFFFF0#24 == 0#24) = decide (x.extractLsb' 4 20 = 0) :=
  mask_high (by decide) _ (by decide) x

theorem mask_8 (x : BitVec 24) : (x &&& 0xFFFF00#24 == 0#24) = decide (x.extractLsb' 8 16 = 0) :=
  mask_high (by decide) _ (by decide) x

theorem mask_11 (x : BitVec 24) : (x &&& 0xFFF800#24 == 0#24) = decide (x.extractLsb' 11 13 = 0) :=
  mask_high (by decide) _ (by decide) x

theorem mask_13 (x : BitVec 24) : (x &&& 0xFFE000#24 == 0#24) = decide (x.extractLsb' 13 11 = 0) :=
  mask_high (by decide) _ (by decide) x

theorem mask_14 (x : BitVec 24) : (x &&& 0xFFC000#24 == 0#24) = decide (x.extractLsb' 14 10 = 0) :=
  mask_high (by decide) _ (by decide) x

theorem mask_16 (x : BitVec 24) : (x &&& 0xFF0000#24 == 0#24) = decide (x.extractLsb' 16 8 = 0) :=
  mask_high (by decide) _ (by decide) x

theorem mask_21 (x : BitVec 24) : (x &&& 0xE00000#24 == 0#24) = decide (x.extractLsb' 21 3 = 0) :=
  mask_high (by decide) _ (by decide) x

theorem mask_all (x : BitVec 24) : (x &&& 0xFFFFFF#24 == 0#24) = decide (x = 0) := by
  have : (0xFFFFFF#24) = BitVec.allOnes 24 := by decide
  rw [this, BitVec.and_allOnes, Bool.eq_iff_iff]
  simp

/-- Format F has reserved bits on both sides of the flags. -/
theorem mask_flags (x : BitVec 24) : (x &&& 0xFFC7FF#24 == 0#24) =
    decide (x.extractLsb' 14 10 = 0 ∧ x.extractLsb' 0 11 = 0) := by
  have hm : (0xFFC7FF#24) = 0xFFC000#24 ||| 0x0007FF#24 := by decide
  have hlow : (x &&& 0x0007FF#24 = 0#24) ↔ x.extractLsb' 0 11 = 0 := by
    have hb : ∀ i : Fin 24, (0x0007FF#24).getLsbD i.val = decide (i.val < 11) := by decide
    constructor
    · intro e
      ext i hi
      have := congrArg (fun w : BitVec 24 => w.getLsbD i) e
      have h2 := hb ⟨i, by omega⟩
      simp only [hi, decide_true] at h2
      simp only [BitVec.getLsbD_and, h2, Bool.and_true] at this
      simpa using this
    · intro e
      ext i hi
      have h2 := hb ⟨i, hi⟩
      simp only at h2
      rw [BitVec.getElem_and, ← BitVec.getLsbD_eq_getElem (x := 0x0007FF#24) hi, h2]
      by_cases hlo : i < 11
      · have := congrArg (fun w : BitVec 11 => w.getLsbD i) e
        simp only [BitVec.getLsbD_extractLsb', hlo, decide_true, Bool.true_and, Nat.zero_add] at this
        rw [BitVec.getLsbD_eq_getElem hi] at this
        simp [this]
      · simp [hlo]
  have hhigh := mask_14 x
  rw [Bool.eq_iff_iff] at hhigh ⊢
  simp only [beq_iff_eq, decide_eq_true_eq] at hhigh ⊢
  rw [← hhigh, ← hlow, hm, BitVec.and_or_distrib_left, BitVec.or_eq_zero_iff]

/-! ### The decoder -/

/-- The first row that accepts, or the alternative: one row at a time. -/
theorem find_elim {β : Type} (p : Row → Bool) (r : Row) (rs : List Row) (f : Row → β) (e : β) :
    ((r :: rs).find? p).elim e f = if p r = true then f r else (rs.find? p).elim e f := by
  rw [List.find?_cons]
  cases p r <;> rfl

theorem decode_elim (c : Word) : decode c = (opcodeMap.find? fun r => r.accepts c).elim
    (if opcodeMap.any (fun r => opcodeField r.value == opcodeField c) then
      .error (.reservedBit (opcodeField c)) else .error (.undefinedOpcode (opcodeField c)))
    (fun r => .ok (r.build c)) := by
  unfold decode
  cases opcodeMap.find? fun r => r.accepts c <;> rfl

/-- The opcode map with every mask and match value written as opcode byte and operand bits. -/
theorem decode_append (op : Byte) (x : BitVec 24) : decode (op ++ x) =
    if op = 0x00 ∧ x = 0 then .ok .nop
    else if op = 0x01 ∧ x.extractLsb' 4 20 = 0 then .ok (.rd (x.extractLsb' 0 4))
    else if op = 0x02 ∧ x = 0 then .ok .clrerr
    else if op = 0x03 ∧ x.extractLsb' 21 3 = 0 then .ok (.wbWr (x.extractLsb' 8 13) (x.extractLsb' 0 8))
    else if op = 0x04 ∧ x.extractLsb' 13 11 = 0 then .ok (.wbRd (x.extractLsb' 0 13))
    else if op = 0x05 ∧ x.extractLsb' 14 10 = 0 then .ok (.wbSetlen (x.extractLsb' 0 14))
    else if op = 0x10 ∧ x.extractLsb' 8 16 = 0 then .ok (.xf (x.extractLsb' 0 8))
    else if op = 0x11 ∧ x = 0 then .ok .xfb
    else if op = 0x20 ∧ x.extractLsb' 11 13 = 0 then .ok (.gld (x.extractLsb' 8 3) (x.extractLsb' 0 8))
    else if op = 0x21 ∧ (x.extractLsb' 14 10 = 0 ∧ x.extractLsb' 0 11 = 0) then
      .ok (.glyph ⟨x.getLsbD 11, x.getLsbD 12, x.getLsbD 13⟩)
    else if op = 0x30 ∧ x.extractLsb' 14 10 = 0 then
      .ok (.colPack ⟨x.getLsbD 11, x.getLsbD 12, x.getLsbD 13⟩ (x.extractLsb' 0 11))
    else if op = 0x31 ∧ x.extractLsb' 16 8 = 0 then .ok (.colUnpack (x.extractLsb' 0 16))
    else if op = 0x32 ∧ x.extractLsb' 14 10 = 0 then
      .ok (.colApp ⟨x.getLsbD 11, x.getLsbD 12, x.getLsbD 13⟩ (x.extractLsb' 0 11))
    else if op = 0x33 ∧ x = 0 then .ok .msgClr
    else if op = 0x34 ∧ x = 0 then .ok .msgEmit
    else if op = 0x40 ∧ x = 0 then .ok .ckClr
    else if op = 0x41 ∧ x.extractLsb' 8 16 = 0 then .ok (.ckPush (x.extractLsb' 0 8))
    else if op = 0x42 ∧ x = 0 then .ok .ckFin
    else if op = 0x43 ∧ x.extractLsb' 16 8 = 0 then .ok (.pkInit (x.extractLsb' 0 16))
    else if op = 0x44 ∧ x = 0 then .ok .pkFrame
    else if opcodeMap.any (fun r => opcodeField r.value == op) then .error (.reservedBit op)
    else .error (.undefinedOpcode op) := by
  have h00 := accepts_split 0x00 op 0xFFFFFF 0 x
  have h01 := accepts_split 0x01 op 0xFFFFF0 0 x
  have h02 := accepts_split 0x02 op 0xFFFFFF 0 x
  have h03 := accepts_split 0x03 op 0xE00000 0 x
  have h04 := accepts_split 0x04 op 0xFFE000 0 x
  have h05 := accepts_split 0x05 op 0xFFC000 0 x
  have h10 := accepts_split 0x10 op 0xFFFF00 0 x
  have h11 := accepts_split 0x11 op 0xFFFFFF 0 x
  have h20 := accepts_split 0x20 op 0xFFF800 0 x
  have h21 := accepts_split 0x21 op 0xFFC7FF 0 x
  have h30 := accepts_split 0x30 op 0xFFC000 0 x
  have h31 := accepts_split 0x31 op 0xFF0000 0 x
  have h32 := accepts_split 0x32 op 0xFFC000 0 x
  have h33 := accepts_split 0x33 op 0xFFFFFF 0 x
  have h34 := accepts_split 0x34 op 0xFFFFFF 0 x
  have h40 := accepts_split 0x40 op 0xFFFFFF 0 x
  have h41 := accepts_split 0x41 op 0xFFFF00 0 x
  have h42 := accepts_split 0x42 op 0xFFFFFF 0 x
  have h43 := accepts_split 0x43 op 0xFF0000 0 x
  have h44 := accepts_split 0x44 op 0xFFFFFF 0 x
  simp only [BitVec.ofNat_eq_ofNat, mask_4, mask_8, mask_11, mask_13, mask_14, mask_16, mask_21,
    mask_all, mask_flags, BitVec.reduceAppend] at *
  rw [decode_elim, opcodeField_append]
  generalize (opcodeMap.any fun r => opcodeField r.value == op) = defined
  simp only [opcodeMap, Row.accepts, BitVec.ofNat_eq_ofNat]
  simp only [find_elim, List.find?_nil, Option.elim_none, h00, h01, h02, h03, h04, h05, h10, h11, h20,
    h21, h30, h31, h32, h33, h34, h40, h41, h42, h43, h44, Bool.and_eq_true, beq_iff_eq,
    decide_eq_true_eq, fieldB_append, fieldSel_append, fieldAHigh_append, fieldALow_append,
    fieldN_append, fieldI_append, fieldP_append, fieldH_append, fieldFlags_append]

end Sys2Proof
end

