-- ==== Sys2Proof/Laws/Message.lean ====
section
/-! SUPPORT. The raw serialisation of a Message, byte by byte (42_message.md R126, R127). -/

namespace Sys2Proof.Machine

theorem be16_words_length (l : List Nat) (f : Nat → Half) :
    (l.flatMap fun k => be16 (f k)).length = 2 * l.length := by
  induction l with
  | nil => rfl
  | cons a l ih =>
    rw [List.flatMap_cons, List.length_append, ih, List.length_cons]
    simp only [be16, List.length_cons, List.length_nil]
    omega

theorem be16_words_getElem (l : List Nat) (f : Nat → Half) (j : Nat) (h : j < l.length) :
    (l.flatMap fun k => be16 (f k))[2 * j]? = some ((f l[j]).extractLsb' 8 8) ∧
      (l.flatMap fun k => be16 (f k))[2 * j + 1]? = some ((f l[j]).extractLsb' 0 8) := by
  induction l generalizing j with
  | nil => simp at h
  | cons a l ih =>
    cases j with
    | zero => simp [be16]
    | succ j =>
      have := ih j (by simpa using h)
      have e : 2 * (j + 1) = 2 * j + 1 + 1 := by omega
      rw [e]
      simpa [be16] using this

@[simp] theorem header_length (n : Nat) : (header n).length = 8 := rfl

/-- len(S(n)) = 8 + 2n (R127). -/
@[simp] theorem State.serialise_length (s : State) (n : Nat) : (s.serialise n).length = 8 + 2 * n := by
  simp [State.serialise, be16_words_length (List.range n).reverse (fun k => s.column k)]

/-- The first eight bytes are the header. -/
theorem State.serialise_header (s : State) (n : Nat) {k : Nat} (h : k < 8) :
    (s.serialise n)[k]? = (header n)[k]? :=
  List.getElem?_append_left (by simpa using h)

/-- S(n)[8 + 2j] and S(n)[9 + 2j] are the bytes of Column n − 1 − j, high byte first (R127). -/
theorem State.serialise_column (s : State) (n : Nat) {j : Nat} (h : j < n) :
    (s.serialise n)[8 + 2 * j]? = some ((s.column (n - 1 - j)).extractLsb' 8 8) ∧
      (s.serialise n)[9 + 2 * j]? = some ((s.column (n - 1 - j)).extractLsb' 0 8) := by
  have hw := be16_words_getElem (List.range n).reverse (fun k => s.column k) j (by simpa using h)
  have e : (List.range n).reverse[j]'(by simpa using h) = n - 1 - j := by simp
  rw [e] at hw
  unfold State.serialise
  constructor
  · rw [List.getElem?_append_right (by rw [header_length]; omega), header_length]
    have : 8 + 2 * j - 8 = 2 * j := by omega
    rw [this]
    exact hw.1
  · rw [List.getElem?_append_right (by rw [header_length]; omega), header_length]
    have : 9 + 2 * j - 8 = 2 * j + 1 := by omega
    rw [this]
    exact hw.2

end Sys2Proof.Machine
end

