-- ==== Sys2Proof/Laws/PerInstr.lean ====
section
/-! SUPPORT. The families of laws that are stated once for every command. -/

namespace Sys2Proof.Laws

/-- The opcode byte of a command's encoding is the command's opcode (30_encoding.md R70, R73). -/
def EncodesOpcode.Statement (i : Instr) : Prop := opcodeField (encode i) = i.opcode

theorem EncodesOpcode.nop : EncodesOpcode.Statement .nop := opcodeField_append _ _
theorem EncodesOpcode.rd (sel : BitVec 4) : EncodesOpcode.Statement (.rd sel) := opcodeField_append _ _
theorem EncodesOpcode.clrerr : EncodesOpcode.Statement .clrerr := opcodeField_append _ _
theorem EncodesOpcode.wbWr (a : BitVec 13) (b : Byte) : EncodesOpcode.Statement (.wbWr a b) := opcodeField_append _ _
theorem EncodesOpcode.wbRd (a : BitVec 13) : EncodesOpcode.Statement (.wbRd a) := opcodeField_append _ _
theorem EncodesOpcode.wbSetlen (n : BitVec 14) : EncodesOpcode.Statement (.wbSetlen n) := opcodeField_append _ _
theorem EncodesOpcode.xf (b : Byte) : EncodesOpcode.Statement (.xf b) := opcodeField_append _ _
theorem EncodesOpcode.xfb : EncodesOpcode.Statement .xfb := opcodeField_append _ _
theorem EncodesOpcode.gld (i : BitVec 3) (b : Byte) : EncodesOpcode.Statement (.gld i b) := opcodeField_append _ _
theorem EncodesOpcode.glyph (flags : Colour) : EncodesOpcode.Statement (.glyph flags) := opcodeField_append _ _
theorem EncodesOpcode.colPack (flags : Colour) (p : BitVec 11) : EncodesOpcode.Statement (.colPack flags p) := opcodeField_append _ _
theorem EncodesOpcode.colUnpack (h : Half) : EncodesOpcode.Statement (.colUnpack h) := opcodeField_append _ _
theorem EncodesOpcode.colApp (flags : Colour) (p : BitVec 11) : EncodesOpcode.Statement (.colApp flags p) := opcodeField_append _ _
theorem EncodesOpcode.msgClr : EncodesOpcode.Statement .msgClr := opcodeField_append _ _
theorem EncodesOpcode.msgEmit : EncodesOpcode.Statement .msgEmit := opcodeField_append _ _
theorem EncodesOpcode.ckClr : EncodesOpcode.Statement .ckClr := opcodeField_append _ _
theorem EncodesOpcode.ckPush (b : Byte) : EncodesOpcode.Statement (.ckPush b) := opcodeField_append _ _
theorem EncodesOpcode.ckFin : EncodesOpcode.Statement .ckFin := opcodeField_append _ _
theorem EncodesOpcode.pkInit (h : Half) : EncodesOpcode.Statement (.pkInit h) := opcodeField_append _ _
theorem EncodesOpcode.pkFrame : EncodesOpcode.Statement .pkFrame := opcodeField_append _ _

end Sys2Proof.Laws
end

