-- ==== Sys2Proof/Tests/Slice0.lean ====
section
/-! SUPPORT. Tests. Expected values are those of spec/95_test_vectors.md, or of the rule named; words
are written out bit by bit from the patterns of 30_encoding.md R71 and the opcodes of R73. The last
part names, for every statement with hypotheses, a state and operands that meet them. -/

open Sys2Proof Sys2Proof.Machine

/-- The command goes on to the state. -/
def Test.gives (i : Instr) (s t : State) : Bool :=
  match exec i s with
  | .next u => decide (u = t)
  | _ => false

/-- The step goes on to the state. -/
def Test.stepGives (s t : State) : Bool :=
  match step s with
  | .next u => decide (u = t)
  | _ => false

/-- The commands, one after another, go on to a state that the check accepts. -/
def Test.runGives (is : List Instr) (s : State) (ok : State → Bool) : Bool :=
  match execAll is s with
  | .next u => ok u
  | _ => false

/-- The step answers a next state. -/
def Test.goesOn (s : State) : Bool :=
  match step s with
  | .next _ => true
  | _ => false

theorem Test.next_of_goesOn {s : State} (h : Test.goesOn s = true) : ∃ t, step s = .next t := by
  unfold Test.goesOn at h
  split at h
  · next t ht => exact ⟨t, ht⟩
  · cases h

/-- A wire buffer that holds the bytes from address 0. -/
def Test.wire (bs : List Byte) : Memory := Store.writeBlock 0 bs []

/-- The "A"-like bitmap of 95_test_vectors.md section 2.2. -/
def Test.bitmap : Vector Byte 8 := #v[0x18, 0x3C, 0x66, 0x66, 0x7E, 0x66, 0x66, 0x00]

/-! ### WellFormed: an ill-formed term for each check -/

theorem test_wellFormed_refuses_selector : (Instr.rd 7).wellFormed = false := by decide
theorem test_wellFormed_refuses_length : (Instr.wbSetlen 8193).wellFormed = false := by decide
theorem test_wellFormed_accepts_limits :
    (Instr.rd 6).wellFormed = true ∧ (Instr.wbSetlen 8192).wellFormed = true := by decide

/-! ### Decoding: each constructor from its word, and the word from it -/

theorem test_decode_nop : decode 0b00000000_00000000_00000000_00000000 = .ok .nop ∧
    encode .nop = 0b00000000_00000000_00000000_00000000 := ⟨rfl, by decide⟩
theorem test_decode_rd : decode 0b00000001_00000000_00000000_00001010 = .ok (.rd 10) ∧
    encode (.rd 10) = 0b00000001_00000000_00000000_00001010 := ⟨rfl, by decide⟩
theorem test_decode_clrerr : decode 0b00000010_00000000_00000000_00000000 = .ok .clrerr ∧
    encode .clrerr = 0b00000010_00000000_00000000_00000000 := ⟨rfl, by decide⟩
theorem test_decode_wbWr :
    decode 0b00000011_00010110_00111001_11000101 = .ok (.wbWr 0b10110_00111001 0xC5) ∧
    encode (.wbWr 0b10110_00111001 0xC5) = 0b00000011_00010110_00111001_11000101 := ⟨rfl, by decide⟩
theorem test_decode_wbRd :
    decode 0b00000100_00000000_00011100_01010011 = .ok (.wbRd 0b11100_01010011) ∧
    encode (.wbRd 0b11100_01010011) = 0b00000100_00000000_00011100_01010011 := ⟨rfl, by decide⟩
theorem test_decode_wbSetlen :
    decode 0b00000101_00000000_00101100_01010011 = .ok (.wbSetlen 0b101100_01010011) ∧
    encode (.wbSetlen 0b101100_01010011) = 0b00000101_00000000_00101100_01010011 := ⟨rfl, by decide⟩
theorem test_decode_xf : decode 0b00010000_00000000_00000000_10110100 = .ok (.xf 0xB4) ∧
    encode (.xf 0xB4) = 0b00010000_00000000_00000000_10110100 := ⟨rfl, by decide⟩
theorem test_decode_xfb : decode 0b00010001_00000000_00000000_00000000 = .ok .xfb ∧
    encode .xfb = 0b00010001_00000000_00000000_00000000 := ⟨rfl, by decide⟩
theorem test_decode_gld : decode 0b00100000_00000000_00000110_11010010 = .ok (.gld 6 0xD2) ∧
    encode (.gld 6 0xD2) = 0b00100000_00000000_00000110_11010010 := ⟨rfl, by decide⟩
theorem test_decode_glyph :
    decode 0b00100001_00000000_00101000_00000000 = .ok (.glyph ⟨true, false, true⟩) ∧
    encode (.glyph ⟨true, false, true⟩) = 0b00100001_00000000_00101000_00000000 := ⟨rfl, by decide⟩
theorem test_decode_colPack :
    decode 0b00110000_00000000_00010101_00110010 =
      .ok (.colPack ⟨false, true, false⟩ 0b101_00110010) ∧
    encode (.colPack ⟨false, true, false⟩ 0b101_00110010) = 0b00110000_00000000_00010101_00110010 :=
  ⟨rfl, by decide⟩
theorem test_decode_colUnpack :
    decode 0b00110001_00000000_10110100_01101110 = .ok (.colUnpack 0b10110100_01101110) ∧
    encode (.colUnpack 0b10110100_01101110) = 0b00110001_00000000_10110100_01101110 := ⟨rfl, by decide⟩
theorem test_decode_colApp :
    decode 0b00110010_00000000_00100110_10000001 =
      .ok (.colApp ⟨false, false, true⟩ 0b110_10000001) ∧
    encode (.colApp ⟨false, false, true⟩ 0b110_10000001) = 0b00110010_00000000_00100110_10000001 :=
  ⟨rfl, by decide⟩
theorem test_decode_msgClr : decode 0b00110011_00000000_00000000_00000000 = .ok .msgClr ∧
    encode .msgClr = 0b00110011_00000000_00000000_00000000 := ⟨rfl, by decide⟩
theorem test_decode_msgEmit : decode 0b00110100_00000000_00000000_00000000 = .ok .msgEmit ∧
    encode .msgEmit = 0b00110100_00000000_00000000_00000000 := ⟨rfl, by decide⟩
theorem test_decode_ckClr : decode 0b01000000_00000000_00000000_00000000 = .ok .ckClr ∧
    encode .ckClr = 0b01000000_00000000_00000000_00000000 := ⟨rfl, by decide⟩
theorem test_decode_ckPush : decode 0b01000001_00000000_00000000_01110010 = .ok (.ckPush 0x72) ∧
    encode (.ckPush 0x72) = 0b01000001_00000000_00000000_01110010 := ⟨rfl, by decide⟩
theorem test_decode_ckFin : decode 0b01000010_00000000_00000000_00000000 = .ok .ckFin ∧
    encode .ckFin = 0b01000010_00000000_00000000_00000000 := ⟨rfl, by decide⟩
theorem test_decode_pkInit :
    decode 0b01000011_00000000_11001010_01100101 = .ok (.pkInit 0b11001010_01100101) ∧
    encode (.pkInit 0b11001010_01100101) = 0b01000011_00000000_11001010_01100101 := ⟨rfl, by decide⟩
theorem test_decode_pkFrame : decode 0b01000100_00000000_00000000_00000000 = .ok .pkFrame ∧
    encode .pkFrame = 0b01000100_00000000_00000000_00000000 := ⟨rfl, by decide⟩

/-- Illegal words of 95_test_vectors.md: a reserved bit, or an opcode outside the map. -/
theorem test_decode_rejects_by_name :
    decode 0x00000001 = .error (.reservedBit 0x00) ∧ decode 0x10000100 = .error (.reservedBit 0x10) ∧
    decode 0x20000800 = .error (.reservedBit 0x20) ∧ decode 0x21000801 = .error (.reservedBit 0x21) ∧
    decode 0x30004000 = .error (.reservedBit 0x30) ∧ decode 0x04002000 = .error (.reservedBit 0x04) ∧
    decode 0xFF000000 = .error (.undefinedOpcode 0xFF) ∧
    decode 0x06000000 = .error (.undefinedOpcode 0x06) := ⟨rfl, rfl, rfl, rfl, rfl, rfl, rfl, rfl⟩

theorem test_decodeTableWord : decodeTableWord 32 0x20000366 = some (.gld 3 0x66) ∧
    decodeTableWord 32 0x06000000 = none := ⟨rfl, rfl⟩

/-! ### Geometry (00_scope.md R6) -/

theorem test_geometry : padTop + glyphRows + padBottom = rows ∧ payloadLen + 1 = packetLen ∧
    (header 0).length = hdrLen ∧ hdrLen + 2 * Config.colCap = 8190 := by decide

theorem test_caps : caps = 0x20000FFB := by decide

/-! ### Commands -/

theorem test_nop : Test.stepGives (State.reset.withFetchWord 32 0x00000000) State.reset = true := by decide
theorem test_rd_status :
    Test.gives (.rd 0) { State.reset with ecode := 1, eop := 0x41 }
      { State.reset with ecode := 1, eop := 0x41, res := 0x00004101 } = true := by decide
theorem test_rd_glyph_rows :
    Test.runGives [.gld 0 0x11, .gld 1 0x22, .gld 2 0x33, .gld 3 0x44, .rd 4] State.reset
      (fun t => t.res == 0x44332211) = true := by decide
theorem test_clrerr :
    Test.gives .clrerr { State.reset with ecode := 1, eop := 0x41, cnt := 7, acc := 0xF9 }
      { State.reset with cnt := 7, acc := 0xF9 } = true := by decide
theorem test_clrerr_malformed :
    Test.stepGives (({ State.reset with ecode := 1, eop := 0x41 } : State).issue 0x02000001)
      { State.reset with ecode := 1, eop := 0x41 } = true := by decide
theorem test_wbWr : Test.stepGives (State.reset.issue 0x031FFF00)
    { State.reset with wb := [(8191, 0x00)] } = true := by decide
theorem test_wbWr_overwrites :
    Test.gives (.wbWr 16 0xA4) { State.reset with wb := [(2, 7), (16, 9), (20, 1)] }
      { State.reset with wb := [(2, 7), (16, 0xA4), (20, 1)] } = true := by decide
theorem test_wbRd : Test.gives (.wbRd 16) { State.reset with wb := [(16, 0xA4)] }
    { State.reset with wb := [(16, 0xA4)], res := 0xA4 } = true := by decide
theorem test_wbRd_draws : exec (.wbRd 8191) State.reset =
    .next { State.reset with res := (Config.wbDraw 0).setWidth 32, draws := 1 } := rfl
theorem test_wbSetlen : Test.gives (.wbSetlen 8192) State.reset
    { State.reset with wbLen := 8192 } = true := by decide
theorem test_wbSetlen_illegal : Test.stepGives (State.reset.issue 0x05002001)
    { State.reset with ecode := 3, eop := 0x05 } = true := by decide

theorem test_xf : Test.stepGives (State.reset.issue 0x1000003C)
    { State.reset with res := 0x68 } = true := by decide
theorem test_xf_borrows : Test.gives (.xf 0xFF) State.reset
    { State.reset with res := 0xA5 } = true := by decide
theorem test_xfb : Test.gives .xfb { State.reset with wb := Test.wire [0x12, 0x34, 0x56, 0x78], wbLen := 3 }
    { State.reset with wb := Test.wire [0x92, 0x70, 0x4E, 0x78], wbLen := 3 } = true := by decide
theorem test_xfb_draws : exec .xfb { State.reset with wb := [(0, 0x00)], wbLen := 2 } =
    .next { State.reset with
      wb := [(0, 0xA4), (1, byteTransform (Config.wbDraw 0))], wbLen := 2, draws := 1 } := rfl

theorem test_gld : Test.stepGives (State.reset.issue 0x20000366)
    { State.reset with gr := #v[0, 0, 0, 0x66, 0, 0, 0, 0] } = true := by decide
theorem test_glyph :
    Test.runGives [.glyph ⟨true, false, false⟩] { State.reset with gr := Test.bitmap }
      (fun t => t.cb == Store.writeBlock 0
        [0x2000, 0x21F0, 0x21F8, 0x204C, 0x204C, 0x21F8, 0x21F0, 0x2000] [] && t.cbCnt == 8) = true := by
  decide
theorem test_glyph_corners :
    Test.runGives [.glyph ⟨true, false, false⟩] { State.reset with gr := #v[0x80, 0, 0, 0, 0, 0, 0, 1] }
      (fun t => t.cb == Store.writeBlock 0
        [0x2004, 0x2000, 0x2000, 0x2000, 0x2000, 0x2000, 0x2000, 0x2200] []) = true := by decide

theorem test_colPack : Test.gives (.colPack ⟨false, true, true⟩ 0x155) State.reset
    { State.reset with res := 0xC155 } = true := by decide
theorem test_colPack_bottom : Test.gives (.colPack ⟨true, false, false⟩ 0x400) State.reset
    { State.reset with res := 0x2400 } = true := by decide
theorem test_colUnpack : Test.gives (.colUnpack 0x9801) State.reset
    { State.reset with res := 0x1001 } = true := by decide
theorem test_colUnpack_all : Test.gives (.colUnpack 0xFFFF) State.reset
    { State.reset with res := 0x3FFF } = true := by decide
theorem test_colApp : Test.stepGives (State.reset.issue 0x32000BFC)
    { State.reset with cb := [(0, 0x23FC)], cbCnt := 1 } = true := by decide
theorem test_colApp_full : Test.gives (.colApp ⟨false, false, false⟩ 0)
    { State.reset with cbCnt := 4091 }
    { State.reset with cbCnt := 4091, ecode := 4, eop := 0x32 } = true := by decide
theorem test_msgClr : Test.gives .msgClr { State.reset with cb := [(0, 0x23FC)], cbCnt := 1, res := 5 }
    { State.reset with cb := [(0, 0x23FC)], res := 5 } = true := by decide
theorem test_msgEmit :
    Test.gives .msgEmit { State.reset with cb := [(0, 0x0001), (1, 0xE7FF)], cbCnt := 2 }
      { State.reset with
        cb := [(0, 0x0001), (1, 0xE7FF)], cbCnt := 2, wbLen := 12, res := 12
        wb := Test.wire [0xA4, 0x23, 0xA0, 0xA4, 0xA4, 0xA4, 0xA4, 0xA4, 0xBD, 0xA5, 0xA4, 0xA3] } = true := by
  decide
theorem test_msgEmit_empty :
    Test.gives .msgEmit State.reset
      { State.reset with
        wbLen := 8, res := 8, wb := Test.wire [0xA4, 0x23, 0xA2, 0xA4, 0xA4, 0xA4, 0xA4, 0xA4] } = true := by
  decide

theorem test_ckClr : Test.gives .ckClr { State.reset with cnt := 7, acc := 0xF9, pbuf := #v[1, 2, 3, 4, 5, 6, 7] }
    { State.reset with pbuf := #v[1, 2, 3, 4, 5, 6, 7] } = true := by decide
theorem test_ckPush : Test.gives (.ckPush 0x40) { State.reset with cnt := 6, acc := 0xF0 }
    { State.reset with cnt := 7, acc := 0x30, pbuf := #v[0, 0, 0, 0, 0, 0, 0x40] } = true := by decide
theorem test_ckPush_eighth : Test.gives (.ckPush 0xFF) { State.reset with cnt := 7, acc := 0xF9 }
    { State.reset with cnt := 7, acc := 0xF9, ecode := 1, eop := 0x41 } = true := by decide
theorem test_ckFin :
    Test.runGives (.ckClr :: List.map .ckPush [0x40, 0x40, 0x01, 0x0A, 0, 0, 0] ++ [.ckFin]) State.reset
      (fun t => t.pktOut == [#v[0x40, 0x40, 0x01, 0x0A, 0x00, 0x00, 0x00, 0x8B]] && t.res == 0x8B &&
        t.ckstatWord == 0) = true := by decide
theorem test_ckFin_short : Test.gives .ckFin { State.reset with cnt := 3 }
    { State.reset with cnt := 3, ecode := 1, eop := 0x42 } = true := by decide
theorem test_pkInit : Test.gives (.pkInit 0x1FFF) State.reset
    { State.reset with
      res := 0xA4, pbuf := #v[0x40, 0x40, 0x06, 0xFF, 0x1F, 0x00, 0x00]
      pktOut := [#v[0x40, 0x40, 0x06, 0xFF, 0x1F, 0x00, 0x00, 0xA4]] } = true := by decide
theorem test_pkInit_size_first : Test.gives (.pkInit 0) { State.reset with cnt := 1 }
    { State.reset with cnt := 1, ecode := 2, eop := 0x43 } = true := by decide
theorem test_pkFrame :
    Test.gives .pkFrame { State.reset with
        wb := Test.wire [0xA4, 0x23, 0xA2, 0xA4, 0xA4, 0xA4, 0xA4, 0xA4], wbLen := 8 }
      { State.reset with
        wb := Test.wire [0xA4, 0x23, 0xA2, 0xA4, 0xA4, 0xA4, 0xA4, 0xA4], wbLen := 8
        res := 3, pbuf := #v[0x40, 0x23, 0xA4, 0xA4, 0xA4, 0xA4, 0xA4]
        pktOut := [#v[0x40, 0x40, 0x01, 0x0A, 0x00, 0x00, 0x00, 0x8B],
          #v[0x40, 0x23, 0xA4, 0x23, 0xA2, 0xA4, 0xA4, 0x14],
          #v[0x40, 0x23, 0xA4, 0xA4, 0xA4, 0xA4, 0xA4, 0x97]] } = true := by decide
theorem test_pkFrame_pads : Test.runGives [.pkFrame] { State.reset with wb := [(0, 0x00)], wbLen := 1 }
    (fun t => t.pktOut == [#v[0x40, 0x40, 0x01, 0x05, 0x00, 0x00, 0x00, 0x86],
      #v[0x40, 0x23, 0x00, 0xA4, 0xA4, 0xA4, 0xA4, 0xF3]] && t.wbLen == 1) = true := by decide

/-! ### Port events -/

theorem test_undefined_opcode : Test.stepGives (State.reset.issue 0xFF000000)
    { State.reset with ecode := 3, eop := 0xFF } = true := by decide
theorem test_reset_event :
    Test.stepGives { State.reset with
        inputs := [.reset], res := 9, wb := [(3, 4)], cbCnt := 2, draws := 6
        pktOut := [#v[0, 0, 0, 0, 0, 0, 0, 0]] }
      { State.reset with pktOut := [#v[0, 0, 0, 0, 0, 0, 0, 0]], draws := 6 } = true := by decide
theorem test_reset_during_nop : step { State.reset with inputs := [.resetDuring 0x00000000], res := 9 } =
    .next { State.reset with draws := 1 } := by
  have h : decode 0#32 = .ok .nop := rfl
  simp [step, State.advance, deliver, abandonWord, runWord, State.abandonTo, State.applyReset, State.drew,
    State.reset, h, exec, execNop]
theorem test_second_host : step { State.reset with inputs := [.otherAgent 0x00000000] } =
    .refused .secondHost := rfl
/-- Two packets a byte apart keep their byte order on the port (20_memory.md R52). -/
theorem test_pktData : pktData #v[0x01, 0x23, 0x45, 0x67, 0x89, 0xAB, 0xCD, 0xEF] = 0xEFCDAB8967452301 := by
  decide

/-! ### Assembler (30_encoding.md R77, R78) -/

theorem test_assemble_colApp :
    (assembleLine "COL_APP gb, 0x155 ; two flags".toList).map (List.map encode) = some [0x32003155] := by
  decide
theorem test_assemble_operands :
    (assembleLine "WB_WR 0x10, 0xA4".toList).map (List.map encode) = some [0x030010A4] ∧
    (assembleLine "WB_SETLEN 8".toList).map (List.map encode) = some [0x05000008] := by decide
theorem test_assemble_wbLoad :
    (assembleLine "WB_LOAD 8190, 1, 2".toList).map (List.map encode) = some [0x031FFE01, 0x031FFF02] ∧
    assembleLine "WB_LOAD 8190, 1, 2, 3".toList = none := by decide

/-! ### Witnesses: for each statement with hypotheses, a state and operands that meet them -/

/-- A sound state in the middle of a run: one Column, one wire byte pair, seven bytes pushed, an error
recorded, one packet sent. -/
def Test.busy : State := { State.reset with
  ecode := 1, eop := 0x41, acc := 0x1C, cnt := 7, pbuf := #v[1, 2, 3, 4, 5, 6, 7]
  cb := [(0, 0x23FC)], cbCnt := 1, wb := [(0, 0xA4), (1, 0x23)], wbLen := 2
  pktOut := [#v[0x40, 0x40, 0x01, 0x0A, 0x00, 0x00, 0x00, 0x8B]] }

theorem witness_busy_state_is_sound : Inv Test.busy where
  memory := by decide
  columns :=
    { wf := by decide
      written := by decide
      packed := by
        intro k w h
        simp only [Test.busy, Store.read] at h
        split at h
        · cases h; decide
        · cases h }
  status := ⟨by decide, by decide⟩
  accumulator := by show _ = _; decide
  packets := by
    intro p hp
    simp only [Test.busy, List.mem_singleton] at hp
    exact ⟨#v[0x40, 0x40, 0x01, 0x0A, 0x00, 0x00, 0x00], hp ▸ (by decide)⟩

/-- The events of `Test.busy` do not enter its soundness. -/
theorem witness_inputs_keep_soundness (es : List PortEvent) : Inv { Test.busy with inputs := es } :=
  ⟨witness_busy_state_is_sound.memory, ⟨witness_busy_state_is_sound.columns.wf,
    witness_busy_state_is_sound.columns.written, witness_busy_state_is_sound.columns.packed⟩,
    ⟨witness_busy_state_is_sound.status.codes, witness_busy_state_is_sound.status.quiet⟩,
    witness_busy_state_is_sound.accumulator, witness_busy_state_is_sound.packets⟩

theorem witness_StepRunsDecodedCommand :
    (State.reset.issue 0x20000366).inputs = .command 0x20000366 :: [] ∧
    decode 0x20000366 = .ok (.gld 3 0x66) := ⟨rfl, rfl⟩

theorem witness_IdleBlockHoldsState : Test.busy.inputs = [] := rfl

theorem witness_UndefinedOpcodeRaisesIllegalCommand :
    ∀ op ∈ ([0x06, 0x0F, 0x12, 0x1F, 0x22, 0x2F, 0x35, 0x3F, 0x45, 0xFF] : List Byte),
      op ∉ ([0x00, 0x01, 0x02, 0x03, 0x04, 0x05, 0x10, 0x11, 0x20, 0x21, 0x30, 0x31, 0x32, 0x33, 0x34,
        0x40, 0x41, 0x42, 0x43, 0x44] : List Byte) := by decide

theorem witness_EncodeOfDecode : decode 0x32003155 = .ok (.colApp ⟨false, true, true⟩ 0x155) := rfl

theorem witness_OpcodeRowsDisjoint : ∃ p ∈ opcodeMap, (0x32003155 : Word) &&& p.mask = p.value := by decide

theorem witness_ErrorCaptureKeepsFirstError : State.reset.ecode = 0 ∧ Test.busy.ecode ≠ 0 := by decide

theorem witness_ErrorsArePrecise : (0x42000000 : Word) ≠ 0x02000000 ∧ ∃ t,
    step (State.reset.issue 0x42000000) = .next t ∧
    (t.ecode ≠ State.reset.ecode ∨ t.eop ≠ State.reset.eop) := ⟨by decide, _, rfl, by decide⟩

theorem witness_FirstErrorIsKept : ∃ t, ({ Test.busy with inputs := [.command 0x06000000] } : State).inputs =
      .command 0x06000000 :: [] ∧ Test.busy.ecode ≠ 0 ∧ (0x06000000 : Word) ≠ 0x02000000 ∧
    step { Test.busy with inputs := [.command 0x06000000] } = .next t :=
  ⟨_, rfl, by decide, by decide, rfl⟩

/-- The step lowers `err` on each of the three events. -/
theorem witness_ErrFallsOnlyByClrerrOrReset :
    ∀ e ∈ ([.command 0x02000000, .reset, .resetDuring 0x00000000] : List PortEvent), ∃ t,
      step { Test.busy with inputs := [e] } = .next t ∧ ({ Test.busy with inputs := [e] } : State).ef = true ∧
      t.ef = false := by
  intro e he
  simp only [List.mem_cons, List.not_mem_nil, or_false] at he
  rcases he with rfl | rfl | rfl <;> exact ⟨_, rfl, rfl, rfl⟩

theorem witness_StatusNeverSteersCommands : Instr.ckFin ≠ .rd 0 ∧ Instr.rd 15 ≠ .rd 0 := by decide

/-- Each answer of a word at its boundary: an undefined opcode; RD 6 and 7; WB_SETLEN 8192 and 8193; a
GLYPH at 4083 and 4084; a COL_APP at 4090 and 4091; a CK_PUSH and a CK_FIN at 6 and 7; sizes 0, 1,
0x1FFF and 0x2000; lengths 0, 1, 8190 and 8191. -/
theorem witness_CommandsRaiseOnlyTheirErrors :
    ∀ c ∈ ([(0x06000000, State.reset), (0x01000006, State.reset), (0x01000007, State.reset),
      (0x05002000, State.reset), (0x05002001, State.reset),
      (0x21000000, { State.reset with cbCnt := 4083 }), (0x21000000, { State.reset with cbCnt := 4084 }),
      (0x32000000, { State.reset with cbCnt := 4090 }), (0x32000000, { State.reset with cbCnt := 4091 }),
      (0x41000000, { State.reset with cnt := 6 }), (0x41000000, { State.reset with cnt := 7 }),
      (0x42000000, { State.reset with cnt := 6 }), (0x42000000, { State.reset with cnt := 7 }),
      (0x43000000, State.reset), (0x43000001, State.reset), (0x43001FFF, { State.reset with cnt := 1 }),
      (0x43002000, State.reset), (0x44000000, State.reset),
      (0x44000000, { State.reset with wbLen := 1 }),
      (0x44000000, { State.reset with wbLen := 8190, cnt := 1 }),
      (0x44000000, { State.reset with wbLen := 8191 }), (0x34000000, State.reset)] :
        List (Word × State)),
      ∃ t, (c.2.issue c.1).inputs = .command c.1 :: c.2.inputs ∧ (c.2.issue c.1).ecode = 0 ∧
        step (c.2.issue c.1) = .next t := by
  intro c hc
  have h : c.2.ecode = 0 ∧ Test.goesOn (c.2.issue c.1) = true := by
    revert c
    decide
  obtain ⟨t, ht⟩ := Test.next_of_goesOn h.2
  exact ⟨t, rfl, h.1, ht⟩

theorem witness_ResetLeavesResetValues :
    ({ Test.busy with inputs := [.reset, .command 0] } : State).inputs = .reset :: [.command 0] := rfl

/-- A reset while CK_FIN emits. -/
theorem witness_ResetDuringCommandKeepsWholePackets : ∃ s',
    ({ Test.busy with inputs := [.resetDuring 0x42000000] } : State).inputs = .resetDuring 0x42000000 :: [] ∧
    step (State.issue 0x42000000 { Test.busy with inputs := [] }) = .next s' := ⟨_, rfl, rfl⟩

theorem witness_SecondHostIsRefused :
    ({ Test.busy with inputs := [.otherAgent 0] } : State).inputs = .otherAgent 0 :: [] := rfl

theorem witness_SingleHost :
    SingleHost { Test.busy with inputs := [.command 0x42000000, .reset, .resetDuring 0x44000000] } := by
  intro w h
  simp at h

theorem witness_BlockNeverStops :
    SingleHost { Test.busy with inputs := [.command 0x42000000, .reset, .resetDuring 0x44000000] } :=
  witness_SingleHost

theorem witness_EveryStepKeepsInvariant : ∃ t, Inv { Test.busy with inputs := [.command 0x42000000] } ∧
    step { Test.busy with inputs := [.command 0x42000000] } = .next t :=
  ⟨_, witness_inputs_keep_soundness _, rfl⟩

theorem witness_RunsStaySound :
    Inv { Test.busy with inputs := [.command 0x42000000, .reset, .resetDuring 0x44000000] } ∧
    SingleHost { Test.busy with inputs := [.command 0x42000000, .reset, .resetDuring 0x44000000] } :=
  ⟨witness_inputs_keep_soundness _, witness_SingleHost⟩

theorem witness_RegistersHaveNoOtherWriters : ∃ t, exec .msgClr Test.busy = .next t := ⟨_, rfl⟩

theorem witness_BuffersHaveNoOtherWriters : ∃ t, exec .ckFin Test.busy = .next t := ⟨_, rfl⟩

theorem witness_PacketOutputIsAppendOnly : ∃ t, step { Test.busy with inputs := [.reset] } = .next t := ⟨_, rfl⟩

theorem witness_RdReadsRegisterMap : ∀ sel ∈ ([7, 15] : List (BitVec 4)), 7 ≤ sel.toNat := by decide

theorem witness_WbRdReadsOneByte : Memory.read Test.busy.wb (1 : BitVec 13).toNat = some 0x23 ∧
    Memory.read Test.busy.wb (8191 : BitVec 13).toNat = none := by decide

theorem witness_WbWrWritesOneByte : ∀ k ∈ [0, 1, 3, 8191], k ≠ (2 : BitVec 13).toNat := by decide

theorem witness_WbSetlenSetsLength :
    (8192 : BitVec 14).toNat ≤ 8192 ∧ (0 : BitVec 14).toNat ≤ 8192 ∧ 8192 < (8193 : BitVec 14).toNat := by decide

/-- Both ends of the transformed part, and the byte after it. -/
theorem witness_XfbTransformsBuffer : 0 < Test.busy.wbLen.val ∧ 1 < Test.busy.wbLen.val ∧
    Test.busy.wbLen.val ≤ 2 := by decide

theorem witness_XfbTwiceRestores : Memory.wf Test.busy.wb ∧
    ∀ a, a < Test.busy.wbLen.val → (Memory.read Test.busy.wb a).isSome = true := by decide

theorem witness_PipelineKeepsStream : 1 ≤ 1 ∧ pipeStream 1 [0x00, 0xA4, 0x52] = [0xA4, 0x00, 0x52] := by decide

theorem witness_GlyphAppendsTransposedGlyph :
    ({ State.reset with cbCnt := 4083 } : State).cbCnt.val + 8 ≤ 4091 ∧
    4083 < ({ State.reset with cbCnt := 4084 } : State).cbCnt.val := by decide

theorem witness_ColAppAppendsColumn : ({ State.reset with cbCnt := 4090 } : State).cbCnt.val < 4091 ∧
    ({ State.reset with cbCnt := 4091 } : State).cbCnt.val = 4091 := by decide

theorem witness_MsgEmitSerialisesMessage : 0 < Test.busy.cbCnt.val ∧
    Store.read (Test.busy.cbCnt.val - 1 - 0) Test.busy.cb = some 0x23FC := by decide

theorem witness_HostRecoversMessage : Inv Test.busy ∧ 0 < Test.busy.cbCnt.val :=
  ⟨witness_busy_state_is_sound, by decide⟩

/-- The vectors of 43_packet.md R151: one byte changed; a payload reordered. -/
theorem witness_ChecksumLaws : (2 : Byte) ≠ (#v[1, 2, 3, 4, 5, 6, 7] : Payload)[0] ∧
    (3 : Byte) ≠ (#v[1, 2, 3, 4, 5, 6, 7] : Payload)[6] ∧
    (#v[2, 1, 3, 4, 5, 6, 7] : Payload).toList.Perm (#v[1, 2, 3, 4, 5, 6, 7] : Payload).toList :=
  ⟨by decide, by decide, List.Perm.swap 1 2 _⟩

theorem witness_CkPushAddsOneByte : ({ State.reset with cnt := 6 } : State).cnt ≠ 7 ∧ Test.busy.cnt = 7 := by decide

theorem witness_CkFinEmitsPacket : Test.busy.cnt = 7 ∧ Inv Test.busy ∧
    ({ State.reset with cnt := 6 } : State).cnt ≠ 7 := ⟨rfl, witness_busy_state_is_sound, by decide⟩

theorem witness_MagnitudeIsBitLength : (0 < 1 ∧ 1 < 0x2000) ∧ (0 < 0x1FFF ∧ 0x1FFF < 0x2000) := by decide

theorem witness_PaddingLaw : 10 % 5 = 0 ∧ 6 ≤ 10 := by decide

theorem witness_PkInitEmitsInitialPacket :
    (0 < (1 : Half).toNat ∧ (1 : Half).toNat < 0x2000 ∧ State.reset.cnt = 0) ∧
    (0 < (0x1FFF : Half).toNat ∧ (0x1FFF : Half).toNat < 0x2000 ∧ Test.busy.cnt ≠ 0) ∧
    ((0 : Half).toNat = 0 ∨ 0x2000 ≤ (0 : Half).toNat) ∧
    ((0x2000 : Half).toNat = 0 ∨ 0x2000 ≤ (0x2000 : Half).toNat) := by decide

/-- WB_LEN 1 and 8190 with nothing pushed, 8190 with a byte pushed; WB_LEN 0, 8191 and 8192. -/
theorem witness_PkFrameEmitsPacketSequence :
    (∀ n ∈ [1, 8190], n ≤ Config.wbCap ∧ 0 < n + (5 - n % 5) % 5 ∧ n + (5 - n % 5) % 5 < 0x2000) ∧
    (∀ n ∈ [0, 8191, 8192], n ≤ Config.wbCap ∧
      (n + (5 - n % 5) % 5 = 0 ∨ 0x2000 ≤ n + (5 - n % 5) % 5)) ∧
    State.reset.cnt = 0 ∧ Test.busy.cnt ≠ 0 := by decide

theorem witness_SendTwiceRepeatsPackets :
    0 < Test.busy.wbLen.val ∧ Test.busy.wbLen.val ≤ 8190 ∧ ({ Test.busy with cnt := 0 } : State).cnt = 0 ∧
    ∀ a, a < Test.busy.wbLen.val → (Memory.read Test.busy.wb a).isSome = true := by decide
end

section
/-! PROOFS. The step on a waiting port event, the values of the reset state, and the statement of
10_state.md R35 on what a reset leaves. -/

namespace Sys2Proof.Machine

/-! ### The step and the reset state -/

/-- With an event waiting, a step delivers it to the state in which it has been taken. -/
theorem step_of_inputs_cons {s : State} {e : PortEvent} {rest : List PortEvent}
    (h : s.inputs = e :: rest) : step s = deliver e { s with inputs := rest } := by
  simp only [step, State.advance, h]

/-- A waiting `rst` gives the reset values, PKT_OUT and the later events staying
(70_reset_and_hazards.md R200). -/
theorem step_reset {s : State} {rest : List PortEvent} (h : s.inputs = .reset :: rest) :
    step s = .next ({ s with inputs := rest } : State).applyReset :=
  step_of_inputs_cons h

theorem State.reset_pbuf : State.reset.pbuf = #v[0, 0, 0, 0, 0, 0, 0] := rfl

theorem State.reset_gr : State.reset.gr = #v[0, 0, 0, 0, 0, 0, 0, 0] := rfl

/-- CAPS as a number (10_state.md R30). -/
theorem caps_eq : caps = 0x20000FFB := by decide

/-- Selector 6 reads CAPS, whatever the state (10_state.md R31). -/
theorem State.register_caps (s : State) : s.register 6 = some caps := rfl

/-! ### 10_state.md R35 -/

/-- Settles O14: a waiting reset steps to `applyReset`, whose fields are those of the reset state but
for PKT_OUT and the model's own two; PBUF and the glyph rows of that state are all zeros. -/
theorem resetLeavesResetValues : Obligations.ResetLeavesResetValues := by
  refine ⟨fun s rest h => ⟨_, step_reset h, ?afterReset⟩, ?powerUp, fun s => ?caps⟩
  case afterReset => rw [← State.reset_pbuf, ← State.reset_gr]; rfl
  case powerUp => rw [← State.reset_pbuf, ← State.reset_gr]; rfl
  case caps => rw [State.register_caps, caps_eq]

end Sys2Proof.Machine
end

section
/-! PROOFS. The Byte Transform t as arithmetic on bytes, the step on an issued word, the XF pipeline as
a queue, and the statements of 40_transform.md R100, R101 and R103. -/

namespace Sys2Proof.Machine

/-! ### The Byte Transform as arithmetic (40_transform.md R100) -/

theorem byteTransform_toNat (b : Byte) : (byteTransform b).toNat = (0x1A4 - b.toNat) % 256 := by
  rw [byteTransform, xfConst, BitVec.toNat_ofNat, Nat.mod_mod]

/-- The second form of R100: the 8-bit subtractor, its borrow discarded. -/
theorem byteTransform_eq_sub (b : Byte) : byteTransform b = 0xA4 - b := by
  apply BitVec.eq_of_toNat_eq
  rw [byteTransform_toNat, BitVec.toNat_sub]
  have hb : b.toNat < 256 := b.isLt
  simp only [BitVec.ofNat_eq_ofNat, BitVec.toNat_ofNat]
  omega

/-- `encode` and `decode` are one function (R100): t undoes itself. -/
theorem byteTransform_involutive : Function.Involutive byteTransform := by
  intro b
  rw [byteTransform_eq_sub, byteTransform_eq_sub, sub_sub_cancel]

theorem byteTransform_add_self (b : Byte) : byteTransform b + b = 0xA4 := by
  rw [byteTransform_eq_sub, BitVec.sub_add_cancel]

/-- The fixed points are the two solutions of 2b = 0xA4 mod 256 (R100). -/
theorem byteTransform_eq_self_iff (b : Byte) : byteTransform b = b ↔ b = 0x52 ∨ b = 0xD2 := by
  have hb : b.toNat < 256 := b.isLt
  simp only [← BitVec.toNat_inj, byteTransform_toNat, BitVec.ofNat_eq_ofNat, BitVec.toNat_ofNat]
  omega

/-- Settles O30: the laws above for every byte; the values at 0xA4, 0x00 and 0x01 are evaluated. -/
theorem byteTransformLaws : Obligations.ByteTransformLaws := by
  refine ⟨fun b => ⟨byteTransform_toNat b, byteTransform_eq_sub b, byteTransform_involutive b,
    byteTransform_add_self b, byteTransform_eq_self_iff b⟩, ?atConst, ?atZero,
    byteTransform_involutive.bijective, ?maskAtZero, ?maskAtOne⟩
  case atConst => decide
  case atZero => decide
  case maskAtZero => decide
  case maskAtOne => decide

/-! ### The step on an issued word -/

/-- A word that the host has just issued is the one the step runs, on the state before the issue. -/
theorem step_issue (w : Word) (s : State) : step (s.issue w) = runWord w s :=
  step_of_inputs_cons (State.issue_inputs s w)

theorem runWord_of_ok {w : Word} {i : Instr} (h : decode w = .ok i) (s : State) :
    runWord w s = exec i s := by
  rw [runWord, h]

theorem runWord_of_error {w : Word} {e : DecodeError} (h : decode w = .error e) (s : State) :
    runWord w s = .next (s.raise .illegalCommand (opcodeField w)) := by
  rw [runWord, h, fail_eq]

/-- A step on a word whose opcode has one row: the command where the reserved bits are 0, else
IllegalCommand with that opcode byte (30_encoding.md R72). -/
theorem step_issue_of_decode {op : Byte} {x : BitVec 24} {reservedZero : Prop}
    [Decidable reservedZero] {i : Instr} {e : DecodeError}
    (h : decode (op ++ x) = if reservedZero then .ok i else .error e) (s : State) :
    step (s.issue (op ++ x)) =
      if reservedZero then exec i s else .next (s.raise .illegalCommand op) := by
  rw [step_issue]
  split
  · next hz => exact runWord_of_ok (by rw [h, if_pos hz]) s
  · next hz => rw [runWord_of_error (by rw [h, if_neg hz]) s, opcodeField_append]

/-! ### XF (40_transform.md R101) -/

theorem exec_xf (b : Byte) (s : State) :
    exec (.xf b) s = .next (s.setRes ((byteTransform b).setWidth 32)) := rfl

/-- zext_32(t(b)) as a number: t(b) is below 256, so that the 32-bit word holds it unreduced. -/
theorem byteTransform_setWidth (b : Byte) :
    (byteTransform b).setWidth 32 = BitVec.ofNat 32 ((0x1A4 - b.toNat) % 256) := by
  rw [← byteTransform_toNat, BitVec.ofNat_toNat]

/-- Opcode 0x10 has format B: bits 23 to 8 are reserved (30_encoding.md R71, R73). -/
theorem decode_xf (x : BitVec 24) : decode (0x10#8 ++ x) =
    if x.extractLsb' 8 16 = 0 then .ok (.xf (x.extractLsb' 0 8)) else .error (.reservedBit 0x10) := by
  have hdefined : (opcodeMap.any fun r => opcodeField r.value == 0x10#8) = true := by decide
  rw [decode_append, hdefined]
  simp

/-- Settles O31: the value of RES by `byteTransform_setWidth`; the words of the opcode by the one row
that can accept them. -/
theorem xfTransformsOneByte : Obligations.XfTransformsOneByte := by
  refine ⟨fun b s => ?effect, fun x s => step_issue_of_decode (decode_xf x) s⟩
  case effect => rw [exec_xf, byteTransform_setWidth, State.setRes]

/-! ### The XF pipeline (40_transform.md R103) -/

/-- One stage-advance loses nothing: what leaves and then what stays, oldest first, is what stood there
and then what enters, transformed. -/
theorem pipeAdvance_queue (stages : List (Option Byte)) (x : Option Byte) :
    (pipeAdvance stages x).2 :: (pipeAdvance stages x).1.reverse =
      stages.reverse ++ [x.map byteTransform] := by
  have hne : x.map byteTransform :: stages ≠ [] := List.cons_ne_nil _ _
  rw [pipeAdvance, List.getLast?_eq_some_getLast hne, Option.join_some, ← List.reverse_cons,
    ← List.reverse_concat, List.dropLast_append_getLast hne]

/-- A pipeline is a queue of its own length: what leaves is what stood there, oldest first, and then
what enters, transformed, as far as stage-advances go. -/
theorem pipeRun_eq_take (xs stages : List (Option Byte)) :
    pipeRun stages xs =
      (stages.reverse ++ xs.map (Option.map byteTransform)).take xs.length := by
  induction xs generalizing stages with
  | nil => rfl
  | cons x xs ih =>
    have hqueue : stages.reverse ++ (x :: xs).map (Option.map byteTransform) =
        (pipeAdvance stages x).2 ::
          ((pipeAdvance stages x).1.reverse ++ xs.map (Option.map byteTransform)) := by
      rw [← List.cons_append, pipeAdvance_queue, List.map_cons, List.append_assoc,
        List.singleton_append]
    rw [pipeRun, ih, hqueue, List.length_cons, List.take_succ_cons]

/-- Draining by as many bubbles as there are stages gives out every byte and keeps the bubbles in. -/
theorem pipeStream_eq_map (depth : Nat) (bs : List Byte) :
    pipeStream depth bs = bs.map byteTransform := by
  have hentered : (bs.map some).map (Option.map byteTransform) = (bs.map byteTransform).map some := by
    simp
  have hrun : pipeRun (List.replicate depth none) (bs.map some ++ List.replicate depth none) =
      List.replicate depth none ++ (bs.map byteTransform).map some := by
    rw [pipeRun_eq_take, List.map_append, hentered, ← List.append_assoc, List.reverse_replicate]
    apply List.take_left'
    simp [Nat.add_comm]
  rw [pipeStream, hrun]
  simp

/-- Settles O34: the stream by `pipeStream_eq_map`, which holds at every depth; twice by the
involution of t on each byte. -/
theorem pipelineKeepsStream : Obligations.PipelineKeepsStream := by
  intro depth bs _
  have honce : bs.map byteTransform = bs.map (fun b => 0xA4 - b) :=
    List.map_congr_left fun b _ => byteTransform_eq_sub b
  constructor
  · rw [pipeStream_eq_map, honce]
  · rw [pipeStream_eq_map, pipeStream_eq_map, List.map_map, byteTransform_involutive.comp_self,
      List.map_id]

end Sys2Proof.Machine
end

section
/-! PROOFS. The glyph row registers after GLD, the bits of the transposed Columns that GLYPH appends,
and the statements of 41_glyph.md R111 to R113. -/

namespace Sys2Proof.Machine

/-! ### GLD (41_glyph.md R112) -/

theorem exec_gld (i : BitVec 3) (b : Byte) (s : State) :
    exec (.gld i b) s = .next { s with gr := s.gr.set i.toNat b i.isLt } := rfl

/-- Opcode 0x20 has format GI: bits 23 to 11 are reserved (30_encoding.md R71, R73). -/
theorem decode_gld (x : BitVec 24) : decode (0x20#8 ++ x) =
    if x.extractLsb' 11 13 = 0 then .ok (.gld (x.extractLsb' 8 3) (x.extractLsb' 0 8))
    else .error (.reservedBit 0x20) := by
  have hdefined : (opcodeMap.any fun r => opcodeField r.value == 0x20#8) = true := by decide
  rw [decode_append, hdefined]
  simp

/-- Settles O35: a read of one row after the write of row i; the words of the opcode by the one row of
the map that can accept them. -/
theorem gldWritesOneRow : Obligations.GldWritesOneRow := by
  refine ⟨fun i b s => ⟨_, exec_gld i b s, rfl, fun r hr => ?row⟩,
    fun x s => step_issue_of_decode (decode_gld x) s⟩
  case row => rw [Vector.getElem_set, if_congr eq_comm rfl rfl]

/-! ### The transposition (41_glyph.md R110, R111) -/

theorem columnPixel_padding (gr : Vector Byte 8) (c : Nat) {k : Nat} (h : k < 2 ∨ 10 ≤ k) :
    columnPixel gr c k = false := by
  have houtside : ¬ (padTop ≤ k ∧ k < padTop + glyphRows) := by
    simp only [padTop, glyphRows]
    omega
  rw [columnPixel, ← Bool.decide_and, decide_eq_false houtside, Bool.false_and]

theorem columnPixel_glyphRow (gr : Vector Byte 8) (c : Nat) {r : Nat} (h : r < 8) :
    columnPixel gr c (r + 2) = gr[r].getLsbD (7 - c) := by
  have hinside : padTop ≤ r + 2 ∧ r + 2 < padTop + glyphRows := by
    simp only [padTop, glyphRows]
    omega
  rw [columnPixel, ← Bool.decide_and, decide_eq_true hinside, Bool.true_and, padTop,
    Nat.add_sub_cancel, glyphPixel]
  simp [h]

theorem columnPixels_getLsbD (gr : Vector Byte 8) (c : Nat) {k : Nat} (h : k < 11) :
    (columnPixels gr c).getLsbD k = columnPixel gr c k := by
  rw [columnPixels, BitVec.getLsbD_ofFnLE, dif_pos h]

/-- Pixel k of the packed Column of glyph column c. -/
theorem pack_columnPixels_getLsbD (f : Colour) (gr : Vector Byte 8) (c : Nat) {k : Nat} (h : k < 11) :
    (pack f (columnPixels gr c)).getLsbD k = columnPixel gr c k := by
  rw [pack_pixel f _ h, columnPixels_getLsbD gr c h]

/-- Rows 0, 1 and 10 of the packed Column are unlit. -/
theorem pack_columnPixels_padding (f : Colour) (gr : Vector Byte 8) (c : Nat) :
    (pack f (columnPixels gr c)).getLsbD 0 = false ∧ (pack f (columnPixels gr c)).getLsbD 1 = false ∧
      (pack f (columnPixels gr c)).getLsbD 10 = false := by
  have hpad {k : Nat} (hk : k < 11) (h : k < 2 ∨ 10 ≤ k) :
      (pack f (columnPixels gr c)).getLsbD k = false := by
    rw [pack_columnPixels_getLsbD f gr c hk, columnPixel_padding gr c h]
  exact ⟨hpad (by decide) (by decide), hpad (by decide) (by decide), hpad (by decide) (by decide)⟩

@[simp] theorem glyphWords_length (gr : Vector Byte 8) (f : Colour) :
    (glyphWords gr f).length = 8 := by
  rw [glyphWords, List.length_map, List.length_range, glyphCols]

theorem glyphWords_getElem (gr : Vector Byte 8) (f : Colour) {c : Nat}
    (h : c < (glyphWords gr f).length) : (glyphWords gr f)[c] = pack f (columnPixels gr c) := by
  simp only [glyphWords, List.getElem_map, List.getElem_range]

/-! ### GLYPH (41_glyph.md R113) -/

/-- With room for eight Columns GLYPH writes the glyph's words from CB_CNT up, and counts them. -/
theorem exec_glyph_of_fits (f : Colour) {s : State} (h : s.cbCnt.val + 8 ≤ 4091) :
    ∃ t : State, exec (.glyph f) s = .next t ∧ t = { s with cb := t.cb, cbCnt := t.cbCnt } ∧
      t.cbCnt.val = s.cbCnt.val + 8 ∧
      t.cb = Store.writeBlock s.cbCnt.val (glyphWords s.gr f) s.cb := by
  rcases s.appendColumns_cases (glyphWords s.gr f) with ⟨-, t, happend, hcnt, hcb, hframe⟩ | ⟨hfull, -⟩
  · refine ⟨t, ?_, hframe, by rw [hcnt, glyphWords_length], hcb⟩
    rw [exec, execGlyph, happend]
  · rw [glyphWords_length] at hfull
    have hcap : Config.colCap = 4091 := rfl
    omega

theorem exec_glyph_of_full (f : Colour) {s : State} (h : 4083 < s.cbCnt.val) :
    exec (.glyph f) s = .next (s.raise .columnOverflow 0x21) := by
  rcases s.appendColumns_cases (glyphWords s.gr f) with ⟨hfits, -⟩ | ⟨-, hnone⟩
  · rw [glyphWords_length] at hfits
    have hcap : Config.colCap = 4091 := rfl
    omega
  · rw [exec, execGlyph, hnone, fail_eq, Instr.opcode]

/-- Opcode 0x21 has format F: bits 23 to 14 and 10 to 0 are reserved (30_encoding.md R71, R73). -/
theorem decode_glyph (x : BitVec 24) : decode (0x21#8 ++ x) =
    if x.extractLsb' 14 10 = 0 ∧ x.extractLsb' 0 11 = 0 then
      .ok (.glyph ⟨x.getLsbD 11, x.getLsbD 12, x.getLsbD 13⟩)
    else .error (.reservedBit 0x21) := by
  have hdefined : (opcodeMap.any fun r => opcodeField r.value == 0x21#8) = true := by decide
  rw [decode_append, hdefined]
  simp

/-- Settles O36: the store after the block of eight words read inside the block, where each word is a
packed transposed Column, and outside it; the full buffer; the words of the opcode. -/
theorem glyphAppendsTransposedGlyph : Obligations.GlyphAppendsTransposedGlyph := by
  refine ⟨fun f s hroom => ?appended, fun f s => exec_glyph_of_full f,
    fun x s => step_issue_of_decode (decode_glyph x) s⟩
  case appended =>
    obtain ⟨t, hexec, hframe, hcnt, hcb⟩ := exec_glyph_of_fits f hroom
    refine ⟨t, hexec, hframe, hcnt, fun c hc => ?newColumn, fun k hk => ?oldColumn⟩
    case newColumn =>
      have hread : Store.read (s.cbCnt.val + c) t.cb = some (pack f (columnPixels s.gr c)) := by
        rw [hcb, Store.read_writeBlock_inside (by omega) (by rw [glyphWords_length]; omega),
          glyphWords_getElem]
        simp only [Nat.add_sub_cancel_left]
      obtain ⟨hg, hbl, hr, h12, h11⟩ := pack_flags f (columnPixels s.gr c)
      obtain ⟨h0, h1, h10⟩ := pack_columnPixels_padding f s.gr c
      refine ⟨_, hread, hg, hbl, hr, h12, h11, h0, h1, h10, fun r hr8 => ?_⟩
      rw [pack_columnPixels_getLsbD f s.gr c (by omega), columnPixel_glyphRow s.gr c hr8]
    case oldColumn =>
      rw [hcb, Store.read_writeBlock_outside (by rwa [glyphWords_length])]

end Sys2Proof.Machine
end

section
/-! PROOFS. The Column and message commands: what each answers, the Column at CB_CNT after an append,
the bytes of an emitted Message, and the statements of 42_message.md R122 to R128. -/

namespace Sys2Proof.Machine

/-! ### The words of the family (30_encoding.md R71, R73) -/

/-- The five opcodes of the family have rows, so that their other words have a reserved bit set. -/
theorem opcodeMap_defines_message : ∀ op ∈ ([0x30, 0x31, 0x32, 0x33, 0x34] : List Byte),
    (opcodeMap.any fun r => opcodeField r.value == op) = true := by decide

/-- Opcode 0x30 has format CP: bits 23 to 14 are reserved. -/
theorem decode_colPack (x : BitVec 24) : decode (0x30#8 ++ x) =
    if x.extractLsb' 14 10 = 0 then
      .ok (.colPack ⟨x.getLsbD 11, x.getLsbD 12, x.getLsbD 13⟩ (x.extractLsb' 0 11))
    else .error (.reservedBit 0x30) := by
  rw [decode_append, opcodeMap_defines_message _ (by decide)]
  simp

/-- Opcode 0x31 has format H: bits 23 to 16 are reserved. -/
theorem decode_colUnpack (x : BitVec 24) : decode (0x31#8 ++ x) =
    if x.extractLsb' 16 8 = 0 then .ok (.colUnpack (x.extractLsb' 0 16))
    else .error (.reservedBit 0x31) := by
  rw [decode_append, opcodeMap_defines_message _ (by decide)]
  simp

/-- Opcode 0x32 has format CP, as 0x30 has. -/
theorem decode_colApp (x : BitVec 24) : decode (0x32#8 ++ x) =
    if x.extractLsb' 14 10 = 0 then
      .ok (.colApp ⟨x.getLsbD 11, x.getLsbD 12, x.getLsbD 13⟩ (x.extractLsb' 0 11))
    else .error (.reservedBit 0x32) := by
  rw [decode_append, opcodeMap_defines_message _ (by decide)]
  simp

/-- Opcode 0x33 has format Z: all 24 operand bits are reserved. -/
theorem decode_msgClr (x : BitVec 24) : decode (0x33#8 ++ x) =
    if x = 0 then .ok .msgClr else .error (.reservedBit 0x33) := by
  rw [decode_append, opcodeMap_defines_message _ (by decide)]
  simp

/-- Opcode 0x34 has format Z, as 0x33 has. -/
theorem decode_msgEmit (x : BitVec 24) : decode (0x34#8 ++ x) =
    if x = 0 then .ok .msgEmit else .error (.reservedBit 0x34) := by
  rw [decode_append, opcodeMap_defines_message _ (by decide)]
  simp

/-! ### Packing and unpacking (42_message.md R120 to R123) -/

theorem pack_eq_ofNat (f : Colour) (p : BitVec 11) : pack f p = BitVec.ofNat 16
    (f.g.toNat * 0x8000 + f.bl.toNat * 0x4000 + f.r.toNat * 0x2000 + p.toNat) := by
  rw [← pack_toNat, BitVec.ofNat_toNat, BitVec.setWidth_eq]

/-- A field of one bit as a number. -/
theorem extractLsb'_one_toNat {n : Nat} (w : BitVec n) (i : Nat) :
    (w.extractLsb' i 1).toNat = (w.getLsbD i).toNat := by
  rw [BitVec.extractLsb'_toNat, ← BitVec.testBit_toNat, Nat.toNat_testBit, Nat.shiftRight_eq_div_pow,
    Nat.pow_one]

/-- unpack(w) as the sum of 42_message.md R121. -/
theorem unpack_toNat (w : Half) : (unpack w).toNat = (w.getLsbD 14).toNat * 0x2000 +
    (w.getLsbD 15).toNat * 0x1000 + (w.getLsbD 13).toNat * 0x0800 + w.toNat % 0x0800 := by
  have hpixels : (w.extractLsb' 0 11).toNat = w.toNat % 0x0800 := by
    rw [BitVec.extractLsb'_toNat, Nat.shiftRight_zero]
  simp only [unpack, toNat_append_add, extractLsb'_one_toNat, hpixels]
  omega

theorem exec_colPack (f : Colour) (p : BitVec 11) (s : State) :
    exec (.colPack f p) s = .next (s.setRes ((pack f p).setWidth 32)) := rfl

theorem exec_colUnpack (h : Half) (s : State) :
    exec (.colUnpack h) s = .next (s.setRes ((unpack h).setWidth 32)) := rfl

/-- Settles O37: the zero-extended word is the sum of R120, which `pack_toNat` gives. -/
theorem colPackPacksColumn : Obligations.ColPackPacksColumn := by
  refine ⟨fun f p s => ?effect, fun x s => step_issue_of_decode (decode_colPack x) s⟩
  case effect => rw [exec_colPack, ← pack_toNat, BitVec.ofNat_toNat, State.setRes]

/-- Settles O38: the zero-extended value is the sum of R121, which `unpack_toNat` gives; bits 12 and
11 are in no term of it. -/
theorem colUnpackUnpacksWord : Obligations.ColUnpackUnpacksWord := by
  refine ⟨fun h s => ?effect, fun x s => step_issue_of_decode (decode_colUnpack x) s⟩
  case effect => rw [exec_colUnpack, ← unpack_toNat, BitVec.ofNat_toNat, State.setRes]

/-! ### COL_APP (42_message.md R124) -/

/-- COL_CAP as a number (00_scope.md R7). -/
theorem colCap_eq : Config.colCap = 4091 := rfl

/-- With room for one Column COL_APP writes the packed word at CB_CNT, and counts it. -/
theorem exec_colApp_of_fits (f : Colour) (p : BitVec 11) {s : State} (h : s.cbCnt.val < 4091) :
    ∃ t : State, exec (.colApp f p) s = .next t ∧ t = { s with cb := t.cb, cbCnt := t.cbCnt } ∧
      t.cbCnt.val = s.cbCnt.val + 1 ∧ t.cb = Store.write s.cbCnt.val (pack f p) s.cb := by
  rcases s.appendColumns_cases [pack f p] with ⟨-, t, happend, hcnt, hcb, hframe⟩ | ⟨hfull, -⟩
  · exact ⟨t, by rw [exec, execColApp, happend], hframe, hcnt, hcb⟩
  · rw [List.length_singleton] at hfull
    have hcap := colCap_eq
    omega

theorem exec_colApp_of_full (f : Colour) (p : BitVec 11) {s : State} (h : s.cbCnt.val = 4091) :
    exec (.colApp f p) s = .next (s.raise .columnOverflow 0x32) := by
  rcases s.appendColumns_cases [pack f p] with ⟨hfits, -⟩ | ⟨-, hnone⟩
  · rw [List.length_singleton] at hfits
    have hcap := colCap_eq
    omega
  · rw [exec, execColApp, hnone, fail_eq, Instr.opcode]

/-- Settles O39: the store after one write, read at the written index and at the others; the full
buffer; the words of the opcode. -/
theorem colAppAppendsColumn : Obligations.ColAppAppendsColumn := by
  refine ⟨fun f p s hroom => ?appended, fun f p s => exec_colApp_of_full f p,
    fun x s => step_issue_of_decode (decode_colApp x) s⟩
  case appended =>
    obtain ⟨t, hexec, hframe, hcnt, hcb⟩ := exec_colApp_of_fits f p hroom
    refine ⟨t, hexec, hframe, hcnt, ?newColumn, fun k hk => ?oldColumn⟩
    case newColumn => rw [hcb, Store.read_write_same, pack_eq_ofNat]
    case oldColumn => rw [hcb, Store.read_write_other hk]

/-! ### MSG_CLR (42_message.md R125) -/

theorem exec_msgClr (s : State) : exec .msgClr s = .next { s with cbCnt := 0 } := rfl

/-- Settles O40: the effect is the model's own; the words of the opcode by its one row. -/
theorem msgClrEmptiesMessage : Obligations.MsgClrEmptiesMessage :=
  ⟨exec_msgClr, fun x s => step_issue_of_decode (decode_msgClr x) s⟩

/-! ### MSG_EMIT (42_message.md R126 to R128) -/

/-- MSG_EMIT in one state: the transformed serialisation in WB from address 0, its length in WB_LEN
and RES. -/
theorem exec_msgEmit (s : State) : ∃ t : State, exec .msgEmit s = .next t ∧
    t = { s with wb := t.wb, wbLen := t.wbLen, res := t.res } ∧
    t.wbLen.val = 8 + 2 * s.cbCnt.val ∧ t.res = BitVec.ofNat 32 (8 + 2 * s.cbCnt.val) ∧
    t.wb = Store.writeBlock 0 ((s.serialise s.cbCnt.val).map byteTransform) s.wb :=
  ⟨_, rfl, rfl, rfl, rfl, rfl⟩

/-- A column that a command has written is what CB holds (10_state.md R27). -/
theorem State.column_of_read {s : State} {k : Nat} {w : Half} (h : Store.read k s.cb = some w) :
    s.column k = w := by
  rw [State.column, h, Option.getD_some]

/-- The bytes of the header (42_message.md R126). -/
theorem header_getElem (n : Nat) {k : Nat} (h : k < 8) : (header n)[k]? = some
    (#v[0x00, 0x81, BitVec.ofNat 8 ((n + 2) % 256), BitVec.ofNat 8 ((n + 2) / 256),
      0x00, 0x00, 0x00, 0x00] : Vector Byte 8)[k] :=
  List.getElem?_eq_getElem (by rwa [header_length])

/-- What WB holds at the address of a byte, after the bytes have been transformed and written from
address 0 up. -/
theorem Memory.read_transformed_of_getElem {bytes : List Byte} {a : Nat} {b : Byte}
    (h : bytes[a]? = some b) (m : Memory) :
    Memory.read (Store.writeBlock 0 (bytes.map byteTransform) m) a = some (0xA4 - b) := by
  rw [Memory.read, Store.read_writeBlock, if_pos a.zero_le, Nat.sub_zero, List.getElem?_map, h,
    Option.map_some, Option.some_or, byteTransform_eq_sub]

/-- Settles O41: each byte of WB below the written length is the transform of its byte of the
serialisation, a header byte or half a Column's word; from there up the block write reaches nothing. -/
theorem msgEmitSerialisesMessage : Obligations.MsgEmitSerialisesMessage := by
  refine ⟨fun s => ?emitted, fun x s => step_issue_of_decode (decode_msgEmit x) s⟩
  case emitted =>
    obtain ⟨t, hexec, hframe, hlen, hres, hwb⟩ := exec_msgEmit s
    refine ⟨t, hexec, hframe, hlen, hres, fun k hk => ?headerByte, fun j w hj hw => ?columnBytes,
      fun a ha => ?keptByte⟩
    case headerByte =>
      rw [hwb]
      exact Memory.read_transformed_of_getElem
        ((s.serialise_header _ hk).trans (header_getElem _ hk)) s.wb
    case columnBytes =>
      obtain ⟨hhigh, hlow⟩ := s.serialise_column s.cbCnt.val hj
      rw [State.column_of_read hw] at hhigh hlow
      rw [hwb]
      exact ⟨Memory.read_transformed_of_getElem hhigh s.wb,
        Memory.read_transformed_of_getElem hlow s.wb⟩
    case keptByte =>
      rw [hwb]
      exact Store.read_writeBlock_outside
        (.inr (by rw [List.length_map, State.serialise_length]; omega)) s.wb

end Sys2Proof.Machine
end

section
/-! PROOFS. The checksum and packet commands: what each answers, the accumulator, the bucket and the
padding as arithmetic, and the statements of 43_packet.md R142 to R144, R148 and R149. -/

namespace Sys2Proof.Machine

/-! ### The words of the family (30_encoding.md R71, R73) -/

/-- The five opcodes of the family have rows, so that their other words have a reserved bit set. -/
theorem opcodeMap_defines_packet : ∀ op ∈ ([0x40, 0x41, 0x42, 0x43, 0x44] : List Byte),
    (opcodeMap.any fun r => opcodeField r.value == op) = true := by decide

/-- Opcode 0x40 has format Z: all 24 operand bits are reserved. -/
theorem decode_ckClr (x : BitVec 24) : decode (0x40#8 ++ x) =
    if x = 0 then .ok .ckClr else .error (.reservedBit 0x40) := by
  rw [decode_append, opcodeMap_defines_packet _ (by decide)]
  simp

/-- Opcode 0x41 has format B: bits 23 to 8 are reserved. -/
theorem decode_ckPush (x : BitVec 24) : decode (0x41#8 ++ x) =
    if x.extractLsb' 8 16 = 0 then .ok (.ckPush (x.extractLsb' 0 8))
    else .error (.reservedBit 0x41) := by
  rw [decode_append, opcodeMap_defines_packet _ (by decide)]
  simp

/-- Opcode 0x42 has format Z, as 0x40 has. -/
theorem decode_ckFin (x : BitVec 24) : decode (0x42#8 ++ x) =
    if x = 0 then .ok .ckFin else .error (.reservedBit 0x42) := by
  rw [decode_append, opcodeMap_defines_packet _ (by decide)]
  simp

/-- Opcode 0x43 has format H: bits 23 to 16 are reserved. -/
theorem decode_pkInit (x : BitVec 24) : decode (0x43#8 ++ x) =
    if x.extractLsb' 16 8 = 0 then .ok (.pkInit (x.extractLsb' 0 16))
    else .error (.reservedBit 0x43) := by
  rw [decode_append, opcodeMap_defines_packet _ (by decide)]
  simp

/-! ### CK_CLR (43_packet.md R142) -/

theorem exec_ckClr (s : State) : exec .ckClr s = .next { s with acc := 0, cnt := 0 } := rfl

/-- Settles O46: the effect is the model's own, at every CNT; the words of the opcode by its one
row. -/
theorem ckClrClearsAccumulator : Obligations.CkClrClearsAccumulator :=
  ⟨exec_ckClr, fun x s => step_issue_of_decode (decode_ckClr x) s⟩

/-! ### CK_PUSH (43_packet.md R143) -/

theorem exec_ckPush_of_room (b : Byte) {s : State} (h : s.cnt ≠ 7) :
    exec (.ckPush b) s = .next { s with
      pbuf := s.pbuf.set s.cnt.toNat b (count_indexes_payload h)
      acc := s.acc + b
      cnt := s.cnt + 1 } := by
  rw [exec, execCkPush, dif_neg h]

theorem exec_ckPush_of_full (b : Byte) {s : State} (h : s.cnt = 7) :
    exec (.ckPush b) s = .next (s.raise .protocolError 0x41) := by
  rw [exec, execCkPush, dif_pos h, fail_eq, Instr.opcode]

/-- A count below 7 goes up by one without wrapping. -/
theorem count_succ_toNat {n : BitVec 3} (h : n ≠ 7) : (n + 1).toNat = n.toNat + 1 := by
  have hroom := count_indexes_payload h
  rw [BitVec.toNat_add]
  exact Nat.mod_eq_of_lt (Nat.succ_lt_succ hroom)

/-- Settles O47: the count by `count_succ_toNat`, ACC by addition mod 2^8, PBUF by reading one byte
after the write of byte CNT; the eighth byte; the words of the opcode. -/
theorem ckPushAddsOneByte : Obligations.CkPushAddsOneByte := by
  refine ⟨fun b s hroom => ⟨_, exec_ckPush_of_room b hroom, rfl, count_succ_toNat hroom,
      BitVec.toNat_add s.acc b, fun i hi => ?payloadByte⟩,
    fun b s => exec_ckPush_of_full b, fun x s => step_issue_of_decode (decode_ckPush x) s⟩
  case payloadByte => rw [Vector.getElem_set, if_congr eq_comm rfl rfl]

/-! ### CK_FIN (43_packet.md R144) -/

theorem exec_ckFin_of_full {s : State} (h : s.cnt = 7) : exec .ckFin s = .next { s with
    pktOut := s.pktOut ++ [s.pbuf.push s.acc], res := s.acc.setWidth 32, acc := 0, cnt := 0 } := by
  rw [exec, execCkFin, if_pos h, State.emit]

theorem exec_ckFin_of_short {s : State} (h : s.cnt ≠ 7) :
    exec .ckFin s = .next (s.raise .protocolError 0x42) := by
  rw [exec, execCkFin, if_neg h, fail_eq, Instr.opcode]

/-- With all seven bytes pushed, the running sum is the sum of the whole payload. -/
theorem AccumulatorOk.acc_eq_checksum {s : State} (h : AccumulatorOk s) (hcnt : s.cnt = 7) :
    s.acc = checksum s.pbuf := by
  have hwhole : s.pbuf.toList.take s.cnt.toNat = s.pbuf.toList := by
    rw [hcnt]
    exact List.take_of_length_le s.pbuf.length_toList.le
  rw [h, hwhole, checksum]

/-- Settles O48: ACC is the checksum by the accumulator's invariant; the other counts; the words of
the opcode. That the packet is taken at once is log entry 7. -/
theorem ckFinEmitsPacket : Obligations.CkFinEmitsPacket :=
  ⟨fun _ => exec_ckFin_of_full, fun _ hinv => hinv.accumulator.acc_eq_checksum,
    fun _ => exec_ckFin_of_short, fun x s => step_issue_of_decode (decode_ckFin x) s⟩

/-! ### Padding (43_packet.md R148) -/

theorem padlen_eq (len : Nat) : padlen len = len + (5 - len % 5) % 5 := rfl

theorem le_padlen (len : Nat) : len ≤ padlen len := Nat.le_add_right _ _

theorem padlen_sub_le (len : Nat) : padlen len - len ≤ 4 := by
  rw [padlen_eq]
  omega

/-- No multiple of 5 lies between a length and its padded length. -/
theorem padlen_le_of_mod {len m : Nat} (hm : m % 5 = 0) (hle : len ≤ m) : padlen len ≤ m := by
  rw [padlen_eq]
  omega

/-- Settles O50: `padlen` is a multiple of 5 and a lower bound of those from the length up; the bytes
of the padded buffer by `padded_getElem`. -/
theorem paddingLaw : Obligations.PaddingLaw :=
  ⟨fun len => ⟨padlen_eq len, padlen_mod len, le_padlen len, padlen_sub_le len,
    fun _ => padlen_le_of_mod⟩, padded_getElem⟩

/-! ### The bucket of a size (43_packet.md R145) -/

/-- The sizes of bit length k + 7 are those of bucket k. -/
theorem bitLength_bucket {size k : Nat} (hk : 1 ≤ k) (hlow : 2 ^ (k + 6) ≤ size)
    (hhigh : size < 2 ^ (k + 7)) : max 1 (Nat.log2 size + 1 - 7) = k := by
  have hne : size ≠ 0 := (Nat.two_pow_pos _).trans_le hlow |>.ne'
  have hlog : Nat.log2 size = k + 6 := (Nat.log2_eq_iff hne).2 ⟨hlow, hhigh⟩
  omega

/-- mag(s) is max(1, bitlength(s) − 7), bucket by bucket of its table. -/
theorem mag_eq_bitLength {size : Nat} (hpos : 0 < size) (hlt : size < 0x2000) :
    mag size = max 1 (Nat.log2 size + 1 - 7) := by
  unfold mag
  rw [if_neg hpos.ne']
  split_ifs with h1 h2 h3 h4 h5 h6
  · have hlog : Nat.log2 size < 8 := (Nat.log2_lt hpos.ne').2 (Nat.lt_succ_of_le h1)
    omega
  · exact (bitLength_bucket (by decide) (not_le.1 h1) (Nat.lt_succ_of_le h2)).symm
  · exact (bitLength_bucket (by decide) (not_le.1 h2) (Nat.lt_succ_of_le h3)).symm
  · exact (bitLength_bucket (by decide) (not_le.1 h3) (Nat.lt_succ_of_le h4)).symm
  · exact (bitLength_bucket (by decide) (not_le.1 h4) (Nat.lt_succ_of_le h5)).symm
  · exact (bitLength_bucket (by decide) (not_le.1 h5) (Nat.lt_succ_of_le h6)).symm
  · exact absurd (Nat.le_of_lt_succ hlt) h6

theorem mag_le_six {size : Nat} (hpos : 0 < size) (hlt : size < 0x2000) : mag size ≤ 6 := by
  have hlog : Nat.log2 size < 13 := (Nat.log2_lt hpos.ne').2 hlt
  rw [mag_eq_bitLength hpos hlt]
  omega

/-- The bucket fits the payload byte that holds it. -/
theorem mag_byte_toNat {size : Nat} (hpos : 0 < size) (hlt : size < 0x2000) :
    (BitVec.ofNat 8 (mag size)).toNat = max 1 (Nat.log2 size + 1 - 7) := by
  have hle := mag_le_six hpos hlt
  rw [BitVec.toNat_ofNat, Nat.mod_eq_of_lt (by omega), mag_eq_bitLength hpos hlt]

/-! ### The checksum as a number (43_packet.md R140) -/

theorem sumBytes_toNat (bs : List Byte) : (sumBytes bs).toNat = (bs.map BitVec.toNat).sum % 256 := by
  induction bs with
  | nil => rfl
  | cons b bs ih =>
    have hcons : sumBytes (b :: bs) = b + sumBytes bs := rfl
    rw [hcons, BitVec.toNat_add, ih, List.map_cons, List.sum_cons, Nat.add_mod_mod]

/-- The checksum of an initial payload, whose constant bytes sum to 0x80 (43_packet.md R146). -/
theorem checksum_initPayload_toNat (size : Nat) : (checksum (initPayload size)).toNat =
    (0x80 + (BitVec.ofNat 8 (mag size)).toNat + size % 256 + size / 256) % 256 := by
  rw [checksum, sumBytes_toNat]
  simp only [initPayload, Vector.toList_mk, List.map_cons, List.map_nil, List.sum_cons,
    List.sum_nil, BitVec.ofNat_eq_ofNat, BitVec.toNat_ofNat]
  omega

/-- The packet of an initial payload, byte by byte (43_packet.md R141, R146). -/
theorem packetOf_initPayload (size : Nat) : packetOf (initPayload size) =
    #v[0x40, 0x40, BitVec.ofNat 8 (mag size), BitVec.ofNat 8 (size % 256),
      BitVec.ofNat 8 (size / 256), 0, 0, checksum (initPayload size)] := rfl

/-! ### PK_INIT (43_packet.md R149) -/

theorem sizeOk_iff (size : Nat) : sizeOk size = true ↔ 0 < size ∧ size < 0x2000 := by
  rw [sizeOk, Bool.and_eq_true, decide_eq_true_eq, decide_eq_true_eq, sizeLimit]

theorem exec_pkInit_of_idle {h : Half} {s : State} (hsize : sizeOk h.toNat = true)
    (hcnt : s.cnt = 0) : exec (.pkInit h) s = .next { s with
      pbuf := initPayload h.toNat
      pktOut := s.pktOut ++ [packetOf (initPayload h.toNat)]
      res := (checksum (initPayload h.toNat)).setWidth 32 } := by
  rw [exec, execPkInit, if_pos hsize, if_pos hcnt, State.emitPayload, State.setRes]

/-- A size out of range is found first, whatever CNT is (60_exceptions.md R183). -/
theorem exec_pkInit_of_badSize {h : Half} (s : State) (hsize : ¬ sizeOk h.toNat = true) :
    exec (.pkInit h) s = .next (s.raise .sizeOutOfRange 0x43) := by
  rw [exec, execPkInit, if_neg hsize, fail_eq, Instr.opcode]

theorem exec_pkInit_of_pushed {h : Half} {s : State} (hsize : sizeOk h.toNat = true)
    (hcnt : s.cnt ≠ 0) : exec (.pkInit h) s = .next (s.raise .protocolError 0x43) := by
  rw [exec, execPkInit, if_pos hsize, if_neg hcnt, fail_eq, Instr.opcode]

/-- Settles O51: the packet of the initial payload, its bucket byte by `mag_byte_toNat` and its last
byte by `checksum_initPayload_toNat`; the two errors in their order; the words of the opcode. That the
packet is taken at once is log entry 7. -/
theorem pkInitEmitsInitialPacket : Obligations.PkInitEmitsInitialPacket := by
  refine ⟨fun h s hpos hlt hcnt => ⟨_, _, mag_byte_toNat hpos hlt, checksum_initPayload_toNat _,
      ?emitted⟩, fun h s hbad => exec_pkInit_of_badSize s ?badSize,
    fun h s hpos hlt => exec_pkInit_of_pushed ((sizeOk_iff _).2 ⟨hpos, hlt⟩),
    fun x s => step_issue_of_decode (decode_pkInit x) s⟩
  case emitted =>
    rw [exec_pkInit_of_idle ((sizeOk_iff _).2 ⟨hpos, hlt⟩) hcnt, packetOf_initPayload, initPayload]
  case badSize =>
    rw [sizeOk_iff]
    omega

end Sys2Proof.Machine
end

section
/-! PROOFS. The control commands: the decoder on their words, the register map as RD reads it, what each
command answers, and the statements of 44_control.md R160 to R163 and R165. -/

namespace Sys2Proof.Machine

/-! ### The words of the family (30_encoding.md R71, R73) -/

/-- The opcodes of the family have rows, so that their other words have a reserved bit set. -/
theorem opcodeMap_defines_control : ∀ op ∈ ([0x00, 0x01, 0x02, 0x03, 0x04, 0x05] : List Byte),
    (opcodeMap.any fun r => opcodeField r.value == op) = true := by decide

/-- Opcode 0x00 has format Z: all 24 operand bits are reserved. -/
theorem decode_nop (x : BitVec 24) : decode (0x00#8 ++ x) =
    if x = 0 then .ok .nop else .error (.reservedBit 0x00) := by
  rw [decode_append, opcodeMap_defines_control _ (by decide)]
  simp

/-- Opcode 0x01 has format S: bits 23 to 4 are reserved. -/
theorem decode_rd (x : BitVec 24) : decode (0x01#8 ++ x) =
    if x.extractLsb' 4 20 = 0 then .ok (.rd (x.extractLsb' 0 4)) else .error (.reservedBit 0x01) := by
  rw [decode_append, opcodeMap_defines_control _ (by decide)]
  simp

/-- Opcode 0x02 has format Z, as 0x00 has. -/
theorem decode_clrerr (x : BitVec 24) : decode (0x02#8 ++ x) =
    if x = 0 then .ok .clrerr else .error (.reservedBit 0x02) := by
  rw [decode_append, opcodeMap_defines_control _ (by decide)]
  simp

/-- Opcode 0x03 has format AB: bits 23 to 21 are reserved. -/
theorem decode_wbWr (x : BitVec 24) : decode (0x03#8 ++ x) =
    if x.extractLsb' 21 3 = 0 then .ok (.wbWr (x.extractLsb' 8 13) (x.extractLsb' 0 8))
    else .error (.reservedBit 0x03) := by
  rw [decode_append, opcodeMap_defines_control _ (by decide)]
  simp

/-- Opcode 0x05 has format N: bits 23 to 14 are reserved. -/
theorem decode_wbSetlen (x : BitVec 24) : decode (0x05#8 ++ x) =
    if x.extractLsb' 14 10 = 0 then .ok (.wbSetlen (x.extractLsb' 0 14))
    else .error (.reservedBit 0x05) := by
  rw [decode_append, opcodeMap_defines_control _ (by decide)]
  simp

/-! ### NOP (44_control.md R160) -/

theorem exec_nop (s : State) : exec .nop s = .next s := rfl

/-- Settles O24: the effect is the model's own; the words of the opcode by its one row. -/
theorem nopChangesNothing : Obligations.NopChangesNothing :=
  ⟨exec_nop, fun x s => step_issue_of_decode (decode_nop x) s⟩

/-! ### The register map (10_state.md R31) -/

theorem State.register_status (s : State) :
    s.register 0 = some (0#16 ++ s.eop ++ 0#4 ++ s.ecode) := rfl

theorem State.register_ckstat (s : State) : s.register 1 = some (0#21 ++ s.cnt ++ s.acc) := rfl

theorem State.register_cbcnt (s : State) : s.register 2 = some (BitVec.ofNat 32 s.cbCnt.val) := rfl

theorem State.register_wblen (s : State) : s.register 3 = some (BitVec.ofNat 32 s.wbLen.val) := rfl

theorem State.register_grlo (s : State) :
    s.register 4 = some (s.gr[3] ++ s.gr[2] ++ s.gr[1] ++ s.gr[0]) := rfl

theorem State.register_grhi (s : State) :
    s.register 5 = some (s.gr[7] ++ s.gr[6] ++ s.gr[5] ++ s.gr[4]) := rfl

/-- The selectors from 7 up are reserved. -/
theorem State.register_reserved {sel : BitVec 4} (h : 7 ≤ sel.toNat) (s : State) :
    s.register sel = none := by
  obtain ⟨k, hk⟩ := Nat.exists_eq_add_of_le' h
  simp only [State.register, hk]

/-! ### RD (44_control.md R161) -/

/-- RD puts the register that its selector names into RES, and changes nothing else. -/
theorem exec_rd_of_register {sel : BitVec 4} {v : Word} {s : State} (h : s.register sel = some v) :
    exec (.rd sel) s = .next { s with res := v } := by
  simp only [exec, execRd, h, State.setRes]

theorem exec_rd_of_reserved {sel : BitVec 4} (h : 7 ≤ sel.toNat) (s : State) :
    exec (.rd sel) s = .next (s.raise .illegalCommand 0x01) := by
  rw [exec, execRd, State.register_reserved h, fail_eq, Instr.opcode]

/-- Settles O25: selector by selector through the register map; the reserved selectors; the words of
the opcode. -/
theorem rdReadsRegisterMap : Obligations.RdReadsRegisterMap :=
  ⟨fun s => ⟨exec_rd_of_register s.register_status, exec_rd_of_register s.register_ckstat,
      exec_rd_of_register s.register_cbcnt, exec_rd_of_register s.register_wblen,
      exec_rd_of_register s.register_grlo, exec_rd_of_register s.register_grhi,
      exec_rd_of_register (s.register_caps.trans (congrArg some caps_eq))⟩,
    fun _ s hsel => exec_rd_of_reserved hsel s, fun x s => step_issue_of_decode (decode_rd x) s⟩

/-! ### CLRERR (44_control.md R162) -/

theorem exec_clrerr (s : State) : exec .clrerr s = .next { s with ecode := 0, eop := 0 } := rfl

/-- Settles O26: the effect is the model's own; a malformed CLRERR is a word of the opcode that its one
row rejects. -/
theorem clrerrClearsStatus : Obligations.ClrerrClearsStatus :=
  ⟨exec_clrerr, fun x s => step_issue_of_decode (decode_clrerr x) s⟩

/-! ### WB_WR (44_control.md R163) -/

theorem exec_wbWr (a : BitVec 13) (b : Byte) (s : State) :
    exec (.wbWr a b) s = .next { s with wb := Memory.write s.wb a.toNat b } := rfl

/-- Settles O27: the wire buffer after one write, read at the written address and at the others; the
words of the opcode. -/
theorem wbWrWritesOneByte : Obligations.WbWrWritesOneByte := by
  refine ⟨fun a b s => ⟨_, exec_wbWr a b s, rfl, ?written, fun k hk => ?kept⟩,
    fun x s => step_issue_of_decode (decode_wbWr x) s⟩
  case written => rw [Memory.read_write, if_pos rfl]
  case kept => rw [Memory.read_write, if_neg hk]

/-! ### WB_SETLEN (44_control.md R165) -/

/-- WB_CAP as a number (00_scope.md R7). -/
theorem wbCap_eq : Config.wbCap = 8192 := rfl

theorem exec_wbSetlen_of_fits {n : BitVec 14} (h : n.toNat ≤ Config.wbCap) (s : State) :
    exec (.wbSetlen n) s = .next { s with wbLen := ⟨n.toNat, Nat.lt_succ_of_le h⟩ } := by
  rw [exec, execWbSetlen, dif_pos h]

theorem exec_wbSetlen_of_tooLong {n : BitVec 14} (h : Config.wbCap < n.toNat) (s : State) :
    exec (.wbSetlen n) s = .next (s.raise .illegalCommand 0x05) := by
  rw [exec, execWbSetlen, dif_neg h.not_ge, fail_eq, Instr.opcode]

/-- Settles O29: the two sides of WB_CAP, which is 8192; the words of the opcode. -/
theorem wbSetlenSetsLength : Obligations.WbSetlenSetsLength := by
  refine ⟨fun n s hle => ⟨_, exec_wbSetlen_of_fits ?fits s, rfl, rfl⟩,
    fun n s hlt => exec_wbSetlen_of_tooLong ?tooLong s,
    fun x s => step_issue_of_decode (decode_wbSetlen x) s⟩
  case fits => rwa [wbCap_eq]
  case tooLong => rwa [wbCap_eq]

end Sys2Proof.Machine
end

section
/-! PROOFS. The opcode byte of a decoded word, the error each command raises and what every command
does to STATUS, the idle step, and the statements of 60_exceptions.md R181, R182, R184 and R193. -/

namespace Sys2Proof.Machine

/-! ### The opcode byte of a decoded word (30_encoding.md R73) -/

theorem opcodeField_and (c m : Word) : opcodeField (c &&& m) = opcodeField c &&& opcodeField m :=
  BitVec.extractLsb'_and

/-- Every mask of the map covers the whole opcode byte. -/
theorem opcodeMap_mask_opcode : ∀ r ∈ opcodeMap, opcodeField r.mask = BitVec.allOnes 8 := by decide

/-- Every row builds a command of the row's own opcode byte, whatever the operand bits. -/
theorem opcodeMap_build_opcode (c : Word) :
    ∀ r ∈ opcodeMap, (r.build c).opcode = opcodeField r.value := by
  simp only [opcodeMap, List.forall_mem_cons, Instr.opcode, List.not_mem_nil, false_imp_iff,
    implies_true, and_true]
  decide

/-- A decoded word is accepted by the row that builds its command. -/
theorem row_of_decode {c : Word} {i : Instr} (h : decode c = .ok i) :
    ∃ r ∈ opcodeMap, c &&& r.mask = r.value ∧ r.build c = i := by
  unfold decode at h
  split at h
  · next r hfind =>
    have haccepts := List.find?_some hfind
    exact ⟨r, List.mem_of_find?_eq_some hfind, beq_iff_eq.1 haccepts, Except.ok.inj h⟩
  · next => split at h <;> cases h

/-- The opcode byte of a decoded word is its command's. -/
theorem opcodeField_of_decode {c : Word} {i : Instr} (h : decode c = .ok i) :
    opcodeField c = i.opcode := by
  obtain ⟨r, hr, haccepts, rfl⟩ := row_of_decode h
  rw [opcodeMap_build_opcode c r hr, ← haccepts, opcodeField_and, opcodeMap_mask_opcode r hr,
    BitVec.and_allOnes]

/-- CLRERR has one word, since its mask covers every bit. -/
theorem word_of_decode_clrerr {c : Word} (h : decode c = .ok .clrerr) : c = 0x02000000 := by
  have hop : opcodeField c = 0x02 := opcodeField_of_decode h
  have hsplit := word_split c
  rw [hop] at hsplit
  generalize c.extractLsb' 0 24 = x at hsplit
  subst hsplit
  have hx : x = 0 := by
    by_contra hne
    have herror := decode_clrerr x
    rw [if_neg hne] at herror
    cases h.symm.trans herror
  rw [hx]
  rfl

/-! ### PK_FRAME's conditions (43_packet.md R150) -/

/-- The padded length is in range for the lengths 1 to 8190: 8190 is the last multiple of 5 below
0x2000. -/
theorem sizeOk_padlen_iff (len : Nat) : sizeOk (padlen len) = true ↔ 0 < len ∧ len < 8191 := by
  rw [sizeOk_iff, padlen_eq]
  omega

/-- PK_FRAME changes only PBUF, PKT_OUT, RES and the count of draws. -/
theorem exec_pkFrame_of_idle {s : State} (hsize : sizeOk (padlen s.wbLen.val) = true)
    (hcnt : s.cnt = 0) : ∃ t : State, exec .pkFrame s = .next t ∧
      t = { s with pbuf := t.pbuf, pktOut := t.pktOut, res := t.res, draws := t.draws } := by
  refine ⟨_, by rw [exec, execPkFrame, if_pos hsize, if_pos hcnt], ?_⟩
  rw [State.emitPayloads_eq, State.readBlock_state, State.setRes]

theorem exec_pkFrame_of_badSize {s : State} (hsize : ¬ sizeOk (padlen s.wbLen.val) = true) :
    exec .pkFrame s = .next (s.raise .sizeOutOfRange 0x44) := by
  rw [exec, execPkFrame, if_neg hsize, fail_eq, Instr.opcode]

theorem exec_pkFrame_of_pushed {s : State} (hsize : sizeOk (padlen s.wbLen.val) = true)
    (hcnt : s.cnt ≠ 0) : exec .pkFrame s = .next (s.raise .protocolError 0x44) := by
  rw [exec, execPkFrame, if_pos hsize, if_neg hcnt, fail_eq, Instr.opcode]

/-! ### The commands that draw (10_state.md R28) -/

/-- WB_RD changes only RES and the count of draws. -/
theorem exec_wbRd_frame (a : BitVec 13) (s : State) : ∃ t : State, exec (.wbRd a) s = .next t ∧
    t = { s with res := t.res, draws := t.draws } := by
  refine ⟨_, rfl, ?_⟩
  rw [State.readWB_state, State.setRes]

/-- XFB changes only WB and the count of draws. -/
theorem exec_xfb_frame (s : State) : ∃ t : State, exec .xfb s = .next t ∧
    t = { s with wb := t.wb, draws := t.draws } :=
  ⟨_, rfl, s.transformFrom_state 0 s.wbLen.val⟩

/-! ### The register map (10_state.md R31) -/

/-- The selectors below 7 name a register. -/
theorem State.register_defined {sel : BitVec 4} (h : sel.toNat < 7) (s : State) :
    ∃ v, s.register sel = some v := by
  unfold State.register
  interval_cases sel.toNat <;> exact ⟨_, rfl⟩

/-! ### Which error a command raises (60_exceptions.md R181) -/

/-- The error that a command raises, with the conditions of R181 in the order of R183; the commands of
the last arm raise none. `exec_status` ties it to `exec`. -/
def raisedError (s : State) : Instr → Option ErrorKind
  | .rd sel => if sel.toNat < 7 then none else some .illegalCommand
  | .wbSetlen n => if n.toNat ≤ 8192 then none else some .illegalCommand
  | .glyph _ => if s.cbCnt.val ≤ 4083 then none else some .columnOverflow
  | .colApp _ _ => if s.cbCnt.val < 4091 then none else some .columnOverflow
  | .ckPush _ => if s.cnt = 7 then some .protocolError else none
  | .ckFin => if s.cnt = 7 then none else some .protocolError
  | .pkInit h =>
    if h.toNat = 0 ∨ 0x2000 ≤ h.toNat then some .sizeOutOfRange
    else if s.cnt = 0 then none else some .protocolError
  | .pkFrame =>
    if s.wbLen.val = 0 ∨ 8191 ≤ s.wbLen.val then some .sizeOutOfRange
    else if s.cnt = 0 then none else some .protocolError
  | .nop | .clrerr | .wbWr _ _ | .wbRd _ | .xf _ | .xfb | .gld _ _ | .colPack _ _ | .colUnpack _
  | .msgClr | .msgEmit | .ckClr => none

/-- No error depends on the events still waiting. -/
theorem raisedError_inputs (s : State) (rest : List PortEvent) (i : Instr) :
    raisedError { s with inputs := rest } i = raisedError s i := by
  cases i <;> rfl

/-- What a command does to STATUS: with an error, raising it under the command's opcode byte is all
that the command does; without one, the command completes and leaves STATUS as it was. -/
def StatusEffect (i : Instr) (s : State) : Option ErrorKind → Prop
  | some e => exec i s = .next (s.raise e i.opcode)
  | none => ∃ t : State, exec i s = .next t ∧ t.ecode = s.ecode ∧ t.eop = s.eop

/-- Every command but CLRERR either completes with STATUS unchanged or does nothing but raise the error
of its rule (R182, R184). -/
theorem exec_status {i : Instr} (hi : i ≠ .clrerr) (s : State) :
    StatusEffect i s (raisedError s i) := by
  cases i with
  | clrerr => exact absurd rfl hi
  | rd sel =>
    rw [raisedError]
    split
    · next hsel =>
      obtain ⟨v, hv⟩ := s.register_defined hsel
      exact ⟨_, exec_rd_of_register hv, rfl, rfl⟩
    · next hsel => exact exec_rd_of_reserved (not_lt.1 hsel) s
  | wbSetlen n =>
    rw [raisedError]
    split
    · next hle => exact ⟨_, exec_wbSetlen_of_fits hle s, rfl, rfl⟩
    · next hlt => exact exec_wbSetlen_of_tooLong (not_le.1 hlt) s
  | glyph f =>
    rw [raisedError]
    split
    · next hroom =>
      obtain ⟨t, hexec, hframe, -⟩ := exec_glyph_of_fits f (s := s) (by omega)
      exact ⟨t, hexec, by rw [hframe], by rw [hframe]⟩
    · next hfull => exact exec_glyph_of_full f (not_le.1 hfull)
  | colApp f p =>
    rw [raisedError]
    split
    · next hroom =>
      obtain ⟨t, hexec, hframe, -⟩ := exec_colApp_of_fits f p hroom
      exact ⟨t, hexec, by rw [hframe], by rw [hframe]⟩
    · next hfull =>
      have hcap : s.cbCnt.val ≤ 4091 := Nat.le_of_lt_succ s.cbCnt.isLt
      exact exec_colApp_of_full f p (le_antisymm hcap (not_lt.1 hfull))
  | ckPush b =>
    rw [raisedError]
    split
    · next hfull => exact exec_ckPush_of_full b hfull
    · next hroom => exact ⟨_, exec_ckPush_of_room b hroom, rfl, rfl⟩
  | ckFin =>
    rw [raisedError]
    split
    · next hfull => exact ⟨_, exec_ckFin_of_full hfull, rfl, rfl⟩
    · next hshort => exact exec_ckFin_of_short hshort
  | pkInit h =>
    have hsize := sizeOk_iff h.toNat
    rw [raisedError]
    split_ifs with hbad hcnt
    · exact exec_pkInit_of_badSize s (by rw [hsize]; omega)
    · exact ⟨_, exec_pkInit_of_idle (hsize.2 (by omega)) hcnt, rfl, rfl⟩
    · exact exec_pkInit_of_pushed (hsize.2 (by omega)) hcnt
  | pkFrame =>
    have hsize := sizeOk_padlen_iff s.wbLen.val
    rw [raisedError]
    split_ifs with hbad hcnt
    · exact exec_pkFrame_of_badSize (by rw [hsize]; omega)
    · obtain ⟨t, hexec, hframe⟩ := exec_pkFrame_of_idle (hsize.2 (by omega)) hcnt
      exact ⟨t, hexec, by rw [hframe], by rw [hframe]⟩
    · exact exec_pkFrame_of_pushed (hsize.2 (by omega)) hcnt
  | wbRd a =>
    obtain ⟨t, hexec, hframe⟩ := exec_wbRd_frame a s
    exact ⟨t, hexec, by rw [hframe], by rw [hframe]⟩
  | xfb =>
    obtain ⟨t, hexec, hframe⟩ := exec_xfb_frame s
    exact ⟨t, hexec, by rw [hframe], by rw [hframe]⟩
  | _ => exact ⟨_, rfl, rfl, rfl⟩

/-! ### A word's effect on STATUS -/

/-- Any word but CLRERR's completes with STATUS unchanged, or does nothing but raise an error under its
own opcode byte, whether it decodes or not. -/
theorem runWord_status {w : Word} (hw : w ≠ 0x02000000) (s : State) :
    (∃ t : State, runWord w s = .next t ∧ t.ecode = s.ecode ∧ t.eop = s.eop) ∨
      ∃ e : ErrorKind, runWord w s = .next (s.raise e (opcodeField w)) := by
  cases hdecode : decode w with
  | error _ => exact .inr ⟨_, runWord_of_error hdecode s⟩
  | ok i =>
    have hi : i ≠ .clrerr := fun h => hw (word_of_decode_clrerr (h ▸ hdecode))
    have hstatus := exec_status hi s
    rw [runWord_of_ok hdecode, opcodeField_of_decode hdecode]
    cases herror : raisedError s i with
    | none =>
      rw [herror] at hstatus
      exact .inl hstatus
    | some e =>
      rw [herror] at hstatus
      exact .inr ⟨e, hstatus⟩

/-- The error raised while ECODE is 0 is the one recorded. -/
theorem State.raise_of_quiet {s : State} (h : s.ecode = 0) (e : ErrorKind) (op : Byte) :
    s.raise e op = { s with ecode := e.code, eop := op } := by
  rw [State.raise, if_pos h, State.setStatus]

theorem State.raise_of_recorded {s : State} (h : s.ecode ≠ 0) (e : ErrorKind) (op : Byte) :
    s.raise e op = s := by
  rw [State.raise, if_neg h]

/-- From ECODE = 0 a command leaves the code of the error it raises, or 0. -/
theorem exec_ecode {i : Instr} {s t : State} (h : s.ecode = 0) (hexec : exec i s = .next t) :
    t.ecode = (raisedError s i).elim 0 ErrorKind.code := by
  by_cases hi : i = .clrerr
  · subst hi
    cases hexec
    rfl
  · have hstatus := exec_status hi s
    cases herror : raisedError s i with
    | none =>
      rw [herror] at hstatus
      obtain ⟨u, hu, hcode, -⟩ := hstatus
      cases hexec.symm.trans hu
      exact hcode.trans h
    | some e =>
      rw [herror] at hstatus
      cases hexec.symm.trans hstatus
      rw [State.raise_of_quiet h, Option.elim_some]

/-! ### The statements -/

/-- Settles O2: with no event the step is idle by definition. -/
theorem idleBlockHoldsState : Obligations.IdleBlockHoldsState := by
  intro s h
  rw [step, State.advance, h]

/-- Settles O8: the two branches of `State.raise`, and the codes error by error. -/
theorem errorCaptureKeepsFirstError : Obligations.ErrorCaptureKeepsFirstError := by
  refine fun e op s => ⟨fun hquiet => ?recorded, fun herror => ?ignored⟩
  case recorded =>
    rw [fail_eq, State.raise_of_quiet hquiet]
    cases e <;> rfl
  case ignored => rw [fail_eq, State.raise_of_recorded herror]

/-- Settles O9: by `runWord_status` a word that changes STATUS does nothing but raise an error, and
raising changes nothing unless ECODE is 0. -/
theorem errorsArePrecise : Obligations.ErrorsArePrecise := by
  intro s t w rest hinputs hw hstep hchanged
  rw [step_of_inputs_cons hinputs, deliver] at hstep
  rcases runWord_status hw { s with inputs := rest } with ⟨u, hrun, hcode, hop⟩ | ⟨e, hrun⟩
  · cases hstep.symm.trans hrun
    exact absurd hchanged (by simp [hcode, hop])
  · cases hstep.symm.trans hrun
    by_cases hquiet : s.ecode = 0
    · exact ⟨hquiet, e, State.raise_of_quiet (s := { s with inputs := rest }) hquiet e _⟩
    · rw [State.raise_of_recorded (s := { s with inputs := rest }) hquiet] at hchanged
      exact absurd hchanged (by simp)

/-- Settles O13: a word that does not decode raises IllegalCommand; the code that a command leaves is
that of `raisedError`, whose conditions are those of the statement. -/
theorem commandsRaiseOnlyTheirErrors : Obligations.CommandsRaiseOnlyTheirErrors := by
  intro s t w rest hinputs hquiet hstep
  rw [step_of_inputs_cons hinputs, deliver] at hstep
  have hquiet' : ({ s with inputs := rest } : State).ecode = 0 := hquiet
  cases hdecode : decode w with
  | error _ =>
    rw [runWord_of_error hdecode, State.raise_of_quiet hquiet'] at hstep
    cases hstep
    exact ⟨rfl, rfl⟩
  | ok i =>
    rw [runWord_of_ok hdecode] at hstep
    have hcode := exec_ecode hquiet' hstep
    rw [raisedError_inputs] at hcode
    cases i with
    | rd _ | wbSetlen _ | glyph _ | colApp _ _ | ckPush _ | ckFin | pkInit _ | pkFrame =>
      simp only [hcode, raisedError]
      split_ifs <;> rfl
    | _ => exact hcode

end Sys2Proof.Machine
end

section
/-! PROOFS. That no command removes or reorders a packet of PKT_OUT, what a reset during a command
leaves, and the statement of 70_reset_and_hazards.md R201. -/

namespace Sys2Proof.Machine

/-! ### Commands append to PKT_OUT (10_state.md R29) -/

@[simp] theorem State.raise_pktOut (e : ErrorKind) (op : Byte) (s : State) :
    (s.raise e op).pktOut = s.pktOut := by
  rw [s.raise_eq e op]

/-- PK_FRAME appends the packets of its payloads in order (43_packet.md R150). -/
theorem exec_pkFrame_emits {s : State} (hsize : sizeOk (padlen s.wbLen.val) = true) (hcnt : s.cnt = 0) :
    ∃ t : State, exec .pkFrame s = .next t ∧
      t.pktOut = s.pktOut ++ (framePayloads (s.readBlock 0 s.wbLen.val).1).map packetOf := by
  refine ⟨_, by rw [exec, execPkFrame, if_pos hsize, if_pos hcnt], ?_⟩
  rw [State.setRes_pktOut, State.emitPayloads_eq, State.readBlock_state]

/-- A command that raises no error completes, and PKT_OUT holds what it held before, then the packets
that CK_FIN, PK_INIT or PK_FRAME emit. -/
theorem exec_pktOut_of_noError {i : Instr} {s : State} (herror : raisedError s i = none) :
    ∃ t : State, exec i s = .next t ∧ s.pktOut <+: t.pktOut := by
  cases i with
  | ckFin =>
    have hfull : s.cnt = 7 := by simpa [raisedError] using herror
    exact ⟨_, exec_ckFin_of_full hfull, List.prefix_append _ _⟩
  | pkInit h =>
    obtain ⟨hsize, hcnt⟩ : ¬ (h.toNat = 0 ∨ 0x2000 ≤ h.toNat) ∧ s.cnt = 0 := by
      simpa [raisedError, ite_eq_iff] using herror
    exact ⟨_, exec_pkInit_of_idle ((sizeOk_iff _).2 (by omega)) hcnt, List.prefix_append _ _⟩
  | pkFrame =>
    obtain ⟨hsize, hcnt⟩ : ¬ (s.wbLen.val = 0 ∨ 8191 ≤ s.wbLen.val) ∧ s.cnt = 0 := by
      simpa [raisedError, ite_eq_iff] using herror
    obtain ⟨t, hexec, hemits⟩ := exec_pkFrame_emits ((sizeOk_padlen_iff _).2 (by omega)) hcnt
    exact ⟨t, hexec, hemits ▸ List.prefix_append _ _⟩
  | rd sel =>
    have hsel : sel.toNat < 7 := by simpa [raisedError] using herror
    obtain ⟨v, hv⟩ := s.register_defined hsel
    exact ⟨_, exec_rd_of_register hv, List.prefix_rfl⟩
  | wbSetlen n =>
    have hfits : n.toNat ≤ 8192 := by simpa [raisedError] using herror
    exact ⟨_, exec_wbSetlen_of_fits hfits s, List.prefix_rfl⟩
  | glyph f =>
    have hroom : s.cbCnt.val ≤ 4083 := by simpa [raisedError] using herror
    obtain ⟨t, hexec, hframe, -⟩ := exec_glyph_of_fits f (s := s) (by omega)
    exact ⟨t, hexec, by rw [hframe]⟩
  | colApp f p =>
    have hroom : s.cbCnt.val < 4091 := by simpa [raisedError] using herror
    obtain ⟨t, hexec, hframe, -⟩ := exec_colApp_of_fits f p hroom
    exact ⟨t, hexec, by rw [hframe]⟩
  | ckPush b =>
    have hroom : s.cnt ≠ 7 := by simpa [raisedError] using herror
    exact ⟨_, exec_ckPush_of_room b hroom, List.prefix_rfl⟩
  | wbRd a =>
    obtain ⟨t, hexec, hframe⟩ := exec_wbRd_frame a s
    exact ⟨t, hexec, by rw [hframe]⟩
  | xfb =>
    obtain ⟨t, hexec, hframe⟩ := exec_xfb_frame s
    exact ⟨t, hexec, by rw [hframe]⟩
  | _ => exact ⟨_, rfl, List.prefix_rfl⟩

/-- Every command keeps the packets already in PKT_OUT at its front; one that raises an error changes
STATUS alone. -/
theorem exec_pktOut_prefix {i : Instr} {s t : State} (hexec : exec i s = .next t) :
    s.pktOut <+: t.pktOut := by
  cases herror : raisedError s i with
  | none =>
    obtain ⟨u, hu, hprefix⟩ := exec_pktOut_of_noError herror
    cases hexec.symm.trans hu
    exact hprefix
  | some e =>
    have hi : i ≠ .clrerr := by
      rintro rfl
      cases herror
    have hstatus := exec_status hi s
    rw [herror] at hstatus
    cases hexec.symm.trans hstatus
    rw [State.raise_pktOut]

/-- So does every word, whether it decodes or not. -/
theorem runWord_pktOut_prefix {w : Word} {s t : State} (hrun : runWord w s = .next t) :
    s.pktOut <+: t.pktOut := by
  cases hdecode : decode w with
  | ok i => exact exec_pktOut_prefix ((runWord_of_ok hdecode s).symm.trans hrun)
  | error _ =>
    cases hrun.symm.trans (runWord_of_error hdecode s)
    rw [State.raise_pktOut]

/-! ### A reset during a command (70_reset_and_hazards.md R201) -/

/-- Where the command would have completed, a reset during it abandons it. -/
theorem step_resetDuring {s s' : State} {w : Word} {rest : List PortEvent}
    (hinputs : s.inputs = .resetDuring w :: rest)
    (hrun : runWord w { s with inputs := rest } = .next s') :
    step s = .next (({ s with inputs := rest } : State).abandonTo s') := by
  rw [step_of_inputs_cons hinputs, deliver, abandonWord, hrun]

/-- What an abandoned command leaves: of the packets it would have added the first few, their number
drawn, and the reset values elsewhere. -/
theorem State.abandonTo_eq {s s' : State} {pkts : List Packet} (hpkts : s.pktOut ++ pkts = s'.pktOut) :
    s.abandonTo s' = { State.reset with
      pktOut := s.pktOut ++ pkts.take (Config.prefixDraw s'.draws % (pkts.length + 1))
      inputs := s'.inputs
      draws := s'.draws + 1 } := by
  rw [State.abandonTo, ← hpkts, List.drop_left]
  rfl

/-- Settles O15: what the command adds to PKT_OUT comes after the old packets, so those kept are its
first few; the drawn number of them is at most its length, being taken modulo one more. -/
theorem resetDuringCommandKeepsWholePackets : Obligations.ResetDuringCommandKeepsWholePackets := by
  intro s s' w rest hinputs hstep
  rw [step_issue] at hstep
  obtain ⟨pkts, hpkts⟩ := runWord_pktOut_prefix hstep
  have hkept : Config.prefixDraw s'.draws % (pkts.length + 1) ≤ pkts.length :=
    Nat.le_of_lt_succ (Nat.mod_lt _ (Nat.succ_pos _))
  refine ⟨_, pkts, _, step_resetDuring hinputs hstep, hpkts.symm, hkept, ?_⟩
  rw [State.abandonTo_eq hpkts]

end Sys2Proof.Machine
end

section
/-! PROOFS. The operand bits of a word as its fields, the encoder and the decoder as inverses, and the
statements of 30_encoding.md R70 to R77 on words, with those of 10_state.md R34 and 60_exceptions.md
R191 on the event a step takes. -/

namespace Sys2Proof.Machine

/-! ### Bits as their fields -/

/-- Bits are a concatenation exactly when both of its parts are read back. -/
theorem eq_append_iff {v w : Nat} (x : BitVec (v + w)) (a : BitVec v) (b : BitVec w) :
    x = a ++ b ↔ x.extractLsb' w v = a ∧ x.extractLsb' 0 w = b := by
  constructor
  · rintro rfl
    exact ⟨BitVec.extractLsb'_append_eq_left, BitVec.extractLsb'_append_eq_right⟩
  · rintro ⟨rfl, rfl⟩
    exact BitVec.extractLsb'_append_extractLsb'.symm

/-- A field of a field. -/
theorem extract_extract {n start len i l : Nat} (h : i + l ≤ len) (x : BitVec n) :
    (x.extractLsb' start len).extractLsb' i l = x.extractLsb' (start + i) l := by
  apply BitVec.eq_of_getLsbD_eq
  intro j hj
  have hin : i + j < len := by omega
  simp only [BitVec.getLsbD_extractLsb', hj, hin, decide_true, Bool.true_and, Nat.add_assoc]

theorem eq_append_append_iff {u v w : Nat} (x : BitVec (u + v + w)) (a : BitVec u) (b : BitVec v)
    (c : BitVec w) : x = a ++ b ++ c ↔
      x.extractLsb' (w + v) u = a ∧ x.extractLsb' w v = b ∧ x.extractLsb' 0 w = c := by
  rw [eq_append_iff, eq_append_iff, extract_extract (by omega), extract_extract (by omega),
    Nat.add_zero, and_assoc]

theorem extract_one_eq_ofBool_iff {n : Nat} (x : BitVec n) (i : Nat) (b : Bool) :
    x.extractLsb' i 1 = BitVec.ofBool b ↔ x.getLsbD i = b := by
  rw [← BitVec.toNat_inj, extractLsb'_one_toNat, BitVec.toNat_ofBool]
  cases x.getLsbD i <;> cases b <;> decide

/-- The three flags at bits 13 to 11 (30_encoding.md R71). -/
theorem extract_eq_flags_iff (x : BitVec 24) (f : Colour) :
    x.extractLsb' 11 3 = f.bits ↔ (⟨x.getLsbD 11, x.getLsbD 12, x.getLsbD 13⟩ : Colour) = f := by
  obtain ⟨r, g, bl⟩ := f
  rw [Colour.bits, eq_append_append_iff (u := 1) (v := 1) (w := 1),
    extract_extract (by decide), extract_extract (by decide), extract_extract (by decide)]
  simp only [extract_one_eq_ofBool_iff, Colour.mk.injEq]
  tauto

/-- Operand bits with flags at bits 13 to 11: formats CP and F, the latter with P reserved. -/
theorem eq_flagged_iff (x : BitVec 24) (f : Colour) (p : BitVec 11) : x = 0#10 ++ f.bits ++ p ↔
    x.extractLsb' 14 10 = 0 ∧ (⟨x.getLsbD 11, x.getLsbD 12, x.getLsbD 13⟩ : Colour) = f ∧
      x.extractLsb' 0 11 = p := by
  rw [← extract_eq_flags_iff]
  exact eq_append_append_iff (u := 10) (v := 3) (w := 11) x 0 f.bits p

/-! ### The three commands whose words no section above has -/

/-- Opcode 0x04 has format A: bits 23 to 13 are reserved (30_encoding.md R71, R73). -/
theorem decode_wbRd (x : BitVec 24) : decode (0x04#8 ++ x) =
    if x.extractLsb' 13 11 = 0 then .ok (.wbRd (x.extractLsb' 0 13)) else .error (.reservedBit 0x04) := by
  rw [decode_append, opcodeMap_defines_control _ (by decide)]
  simp

/-- Opcode 0x11 has format Z: all 24 operand bits are reserved. -/
theorem decode_xfb (x : BitVec 24) : decode (0x11#8 ++ x) =
    if x = 0 then .ok .xfb else .error (.reservedBit 0x11) := by
  have hdefined : (opcodeMap.any fun r => opcodeField r.value == 0x11#8) = true := by decide
  rw [decode_append, hdefined]
  simp

/-- Opcode 0x44 has format Z, as 0x11 has. -/
theorem decode_pkFrame (x : BitVec 24) : decode (0x44#8 ++ x) =
    if x = 0 then .ok .pkFrame else .error (.reservedBit 0x44) := by
  rw [decode_append, opcodeMap_defines_packet _ (by decide)]
  simp

/-! ### The encoder and the decoder as inverses (30_encoding.md R70 to R73) -/

/-- The words of an opcode's one row that decode to a given command: those with the reserved bits 0 and
the command's fields. -/
theorem decode_eq_ok_iff {w : Word} {reservedZero sameFields : Prop} [Decidable reservedZero]
    {i j : Instr} {e : DecodeError} (h : decode w = if reservedZero then .ok j else .error e)
    (hfields : (j = i) = sameFields) : decode w = .ok i ↔ reservedZero ∧ sameFields := by
  subst hfields
  rw [h]
  split
  · next hz => simp [hz]
  · next hz => simp [hz]

/-- A word with a command's opcode byte decodes to the command exactly when its operand bits are those
that the encoder writes: reserved bits 0, each field the command's. -/
theorem decode_opcode_append_iff (i : Instr) (x : BitVec 24) :
    decode (i.opcode ++ x) = .ok i ↔ x = i.operandBits := by
  cases i with
  | rd sel =>
    exact (decode_eq_ok_iff (decode_rd x) (Instr.rd.injEq _ _)).trans
      (eq_append_iff (v := 20) (w := 4) x 0 sel).symm
  | wbRd a =>
    exact (decode_eq_ok_iff (decode_wbRd x) (Instr.wbRd.injEq _ _)).trans
      (eq_append_iff (v := 11) (w := 13) x 0 a).symm
  | wbSetlen n =>
    exact (decode_eq_ok_iff (decode_wbSetlen x) (Instr.wbSetlen.injEq _ _)).trans
      (eq_append_iff (v := 10) (w := 14) x 0 n).symm
  | xf b =>
    exact (decode_eq_ok_iff (decode_xf x) (Instr.xf.injEq _ _)).trans
      (eq_append_iff (v := 16) (w := 8) x 0 b).symm
  | colUnpack h =>
    exact (decode_eq_ok_iff (decode_colUnpack x) (Instr.colUnpack.injEq _ _)).trans
      (eq_append_iff (v := 8) (w := 16) x 0 h).symm
  | ckPush b =>
    exact (decode_eq_ok_iff (decode_ckPush x) (Instr.ckPush.injEq _ _)).trans
      (eq_append_iff (v := 16) (w := 8) x 0 b).symm
  | pkInit h =>
    exact (decode_eq_ok_iff (decode_pkInit x) (Instr.pkInit.injEq _ _)).trans
      (eq_append_iff (v := 8) (w := 16) x 0 h).symm
  | wbWr a b =>
    exact (decode_eq_ok_iff (decode_wbWr x) (Instr.wbWr.injEq _ _ _ _)).trans
      (eq_append_append_iff (u := 3) (v := 13) (w := 8) x 0 a b).symm
  | gld i b =>
    exact (decode_eq_ok_iff (decode_gld x) (Instr.gld.injEq _ _ _ _)).trans
      (eq_append_append_iff (u := 13) (v := 3) (w := 8) x 0 i b).symm
  | glyph f =>
    refine (decode_eq_ok_iff (decode_glyph x) (Instr.glyph.injEq _ _)).trans ?_
    rw [and_assoc, and_comm (a := x.extractLsb' 0 11 = 0)]
    exact (eq_flagged_iff x f 0).symm
  | colPack f p =>
    exact (decode_eq_ok_iff (decode_colPack x) (Instr.colPack.injEq _ _ _ _)).trans
      (eq_flagged_iff x f p).symm
  | colApp f p =>
    exact (decode_eq_ok_iff (decode_colApp x) (Instr.colApp.injEq _ _ _ _)).trans
      (eq_flagged_iff x f p).symm
  | nop => exact (decode_eq_ok_iff (decode_nop x) (eq_self _)).trans (and_iff_left trivial)
  | clrerr => exact (decode_eq_ok_iff (decode_clrerr x) (eq_self _)).trans (and_iff_left trivial)
  | xfb => exact (decode_eq_ok_iff (decode_xfb x) (eq_self _)).trans (and_iff_left trivial)
  | msgClr => exact (decode_eq_ok_iff (decode_msgClr x) (eq_self _)).trans (and_iff_left trivial)
  | msgEmit => exact (decode_eq_ok_iff (decode_msgEmit x) (eq_self _)).trans (and_iff_left trivial)
  | ckClr => exact (decode_eq_ok_iff (decode_ckClr x) (eq_self _)).trans (and_iff_left trivial)
  | ckFin => exact (decode_eq_ok_iff (decode_ckFin x) (eq_self _)).trans (and_iff_left trivial)
  | pkFrame => exact (decode_eq_ok_iff (decode_pkFrame x) (eq_self _)).trans (and_iff_left trivial)

/-- Settles O4: the operand bits of an encoding are those that decode to the command. -/
theorem decodeOfEncode : Obligations.DecodeOfEncode :=
  fun i => (decode_opcode_append_iff i i.operandBits).2 rfl

/-- Settles O5: a decoded word has its command's opcode byte, so that its other bits can only be the
command's operand bits. -/
theorem encodeOfDecode : Obligations.EncodeOfDecode := by
  intro w i hdecode
  have hword : i.opcode ++ w.extractLsb' 0 24 = w := by
    rw [← opcodeField_of_decode hdecode, ← word_split]
  have hbits : w.extractLsb' 0 24 = i.operandBits := by
    rw [← decode_opcode_append_iff, hword, hdecode]
  rw [encode, ← hbits, hword]

/-! ### The opcode map -/

/-- The opcode byte of every command is one of the twenty of the map (30_encoding.md R73). -/
theorem opcode_mem_map (i : Instr) : i.opcode ∈ ([0x00, 0x01, 0x02, 0x03, 0x04, 0x05, 0x10, 0x11,
    0x20, 0x21, 0x30, 0x31, 0x32, 0x33, 0x34, 0x40, 0x41, 0x42, 0x43, 0x44] : List Byte) := by
  cases i <;> simp [Instr.opcode]

/-- Settles O3: a word that decodes has its command's opcode byte, so that a word of another opcode
byte does not decode. -/
theorem undefinedOpcodeRaisesIllegalCommand : Obligations.UndefinedOpcodeRaisesIllegalCommand := by
  intro op x s hop
  rw [step_issue]
  cases hdecode : decode (op ++ x) with
  | ok i =>
    have hopcode := opcodeField_of_decode hdecode
    rw [opcodeField_append] at hopcode
    exact absurd (hopcode ▸ opcode_mem_map i) hop
  | error _ => rw [runWord_of_error hdecode, opcodeField_append]

/-- No two rows have the same opcode byte. -/
theorem opcodeMap_opcodes_nodup : (opcodeMap.map fun r => opcodeField r.value).Nodup := by decide

/-- A row accepts words of its own opcode byte only. -/
theorem opcodeField_of_accepts {w : Word} {r : Row} (hr : r ∈ opcodeMap)
    (h : w &&& r.mask = r.value) : opcodeField r.value = opcodeField w := by
  rw [← h, opcodeField_and, opcodeMap_mask_opcode r hr, BitVec.and_allOnes]

/-- Settles O6: two rows that accept one word have that word's opcode byte, so they are one row. -/
theorem opcodeRowsDisjoint : Obligations.OpcodeRowsDisjoint := by
  intro w p q hp hq hpw hqw
  have hsame : p = q := List.inj_on_of_nodup_map opcodeMap_opcodes_nodup hp hq
    ((opcodeField_of_accepts hp hpw).trans (opcodeField_of_accepts hq hqw).symm)
  rw [hsame]

/-- Settles O7: each word is the encoding of the command beside it. -/
theorem exampleWordsDecode : Obligations.ExampleWordsDecode :=
  ⟨decodeOfEncode .msgEmit, decodeOfEncode (.xf 0x3C), decodeOfEncode (.rd 1),
    decodeOfEncode (.wbWr 0x10 0xA4), decodeOfEncode (.wbRd 0x10), decodeOfEncode (.wbSetlen 8),
    decodeOfEncode (.gld 3 0x66), decodeOfEncode (.glyph ⟨true, false, false⟩),
    decodeOfEncode (.colApp ⟨false, true, true⟩ 0x155), decodeOfEncode (.pkInit 0x0A)⟩

/-! ### The event a step takes -/

/-- Settles O1: the step delivers the word, and the word runs as what it decodes to. -/
theorem stepRunsDecodedCommand : Obligations.StepRunsDecodedCommand := by
  intro s w rest i hinputs hdecode
  rw [step_of_inputs_cons hinputs, deliver, runWord_of_ok hdecode]

/-- Settles O16: the delivery of another agent's word is the refusal. -/
theorem secondHostIsRefused : Obligations.SecondHostIsRefused := by
  intro s w rest hinputs
  rw [step_of_inputs_cons hinputs, deliver]

end Sys2Proof.Machine
end

section
/-! PROOFS. What each command writes and what a step can do, and the statements of 10_state.md R22 to
R29 on writers, of 60_exceptions.md R182, R186 and R188 on the recorded error, and of
70_reset_and_hazards.md R205 on going on. -/

namespace Sys2Proof.Machine

/-! ### What each command writes -/

/-- The state `s` with the fields that the command can write taken from `t`: STATUS, which CLRERR writes
by its rule and the others by raising an error, and those that the command's own rule names.
`exec_eq_frame` ties it to `exec`. -/
def frame (i : Instr) (s t : State) : State :=
  let u : State := { s with ecode := t.ecode, eop := t.eop }
  match i with
  | .nop | .clrerr => u
  | .rd _ | .xf _ | .colPack _ _ | .colUnpack _ => { u with res := t.res }
  | .wbWr _ _ => { u with wb := t.wb }
  | .wbRd _ => { u with res := t.res, draws := t.draws }
  | .wbSetlen _ => { u with wbLen := t.wbLen }
  | .xfb => { u with wb := t.wb, draws := t.draws }
  | .gld _ _ => { u with gr := t.gr }
  | .glyph _ | .colApp _ _ => { u with cb := t.cb, cbCnt := t.cbCnt }
  | .msgClr => { u with cbCnt := 0 }
  | .msgEmit => { u with wb := t.wb, wbLen := t.wbLen, res := t.res }
  | .ckClr => { u with acc := 0, cnt := 0 }
  | .ckPush _ => { u with pbuf := t.pbuf, acc := t.acc, cnt := t.cnt }
  | .ckFin => { u with pktOut := t.pktOut, res := t.res, acc := t.acc, cnt := t.cnt }
  | .pkInit _ => { u with pbuf := t.pbuf, pktOut := t.pktOut, res := t.res }
  | .pkFrame => { u with pbuf := t.pbuf, pktOut := t.pktOut, res := t.res, draws := t.draws }

/-- What a command that raises no error puts into the fields that the invariant speaks of.
`exec_of_noError` ties it to `exec`. -/
def Effect (s t : State) : Instr → Prop
  | .clrerr => t.ecode = 0 ∧ t.eop = 0
  | .wbWr a b => t.wb = Memory.write s.wb a.toNat b
  | .xfb => t.wb = (s.transformFrom 0 s.wbLen.val).wb
  | .glyph f => t.cbCnt.val = s.cbCnt.val + 8 ∧
      t.cb = Store.writeBlock s.cbCnt.val (glyphWords s.gr f) s.cb
  | .colApp f p => t.cbCnt.val = s.cbCnt.val + 1 ∧ t.cb = Store.write s.cbCnt.val (pack f p) s.cb
  | .msgEmit => t.wb = Store.writeBlock 0 ((s.serialise s.cbCnt.val).map byteTransform) s.wb
  | .ckPush b => ∃ hroom : s.cnt ≠ 7,
      t.pbuf = s.pbuf.set s.cnt.toNat b (count_indexes_payload hroom) ∧ t.acc = s.acc + b ∧
        t.cnt = s.cnt + 1
  | .ckFin => s.cnt = 7 ∧ t.pktOut = s.pktOut ++ [s.pbuf.push s.acc] ∧ t.acc = 0 ∧ t.cnt = 0
  | .pkInit _ | .pkFrame => s.cnt = 0 ∧ ∃ ps : List Payload, t.pktOut = s.pktOut ++ ps.map packetOf
  | .nop | .rd _ | .wbRd _ | .wbSetlen _ | .xf _ | .gld _ _ | .colPack _ _ | .colUnpack _ | .msgClr
  | .ckClr => True

/-- PK_FRAME in one state, with what it reads and emits. -/
theorem exec_pkFrame_eq {s : State} (hsize : sizeOk (padlen s.wbLen.val) = true) (hcnt : s.cnt = 0) :
    exec .pkFrame s = .next { s with
      pbuf := (framePayloads (s.readBlock 0 s.wbLen.val).1).getLastD s.pbuf
      pktOut := s.pktOut ++ (framePayloads (s.readBlock 0 s.wbLen.val).1).map packetOf
      res := BitVec.ofNat 32 (1 + padlen s.wbLen.val / 5)
      draws := s.draws + s.unwrittenBelow s.wbLen.val } := by
  rw [exec, execPkFrame, if_pos hsize, if_pos hcnt, State.emitPayloads_eq, State.readBlock_state,
    State.readBlock_draws, unwrittenBelow_eq, State.setRes, chunkLen]

/-- A command that raises no error completes, writing only what its rule names. -/
theorem exec_of_noError {i : Instr} {s : State} (herror : raisedError s i = none) :
    ∃ t : State, exec i s = .next t ∧ t = frame i s t ∧ Effect s t i := by
  cases i with
  | rd sel =>
    have hsel : sel.toNat < 7 := by simpa [raisedError] using herror
    obtain ⟨v, hv⟩ := s.register_defined hsel
    exact ⟨_, exec_rd_of_register hv, rfl, trivial⟩
  | wbSetlen n =>
    have hfits : n.toNat ≤ 8192 := by simpa [raisedError] using herror
    exact ⟨_, exec_wbSetlen_of_fits hfits s, rfl, trivial⟩
  | glyph f =>
    have hroom : s.cbCnt.val ≤ 4083 := by simpa [raisedError] using herror
    obtain ⟨t, hexec, hframe, heffect⟩ := exec_glyph_of_fits f (s := s) (by omega)
    exact ⟨t, hexec, by rw [hframe]; rfl, heffect⟩
  | colApp f p =>
    have hroom : s.cbCnt.val < 4091 := by simpa [raisedError] using herror
    obtain ⟨t, hexec, hframe, heffect⟩ := exec_colApp_of_fits f p hroom
    exact ⟨t, hexec, by rw [hframe]; rfl, heffect⟩
  | ckPush b =>
    have hroom : s.cnt ≠ 7 := by simpa [raisedError] using herror
    exact ⟨_, exec_ckPush_of_room b hroom, rfl, hroom, rfl, rfl, rfl⟩
  | ckFin =>
    have hfull : s.cnt = 7 := by simpa [raisedError] using herror
    exact ⟨_, exec_ckFin_of_full hfull, rfl, hfull, rfl, rfl, rfl⟩
  | pkInit h =>
    obtain ⟨hsize, hcnt⟩ : ¬ (h.toNat = 0 ∨ 0x2000 ≤ h.toNat) ∧ s.cnt = 0 := by
      simpa [raisedError, ite_eq_iff] using herror
    exact ⟨_, exec_pkInit_of_idle ((sizeOk_iff _).2 (by omega)) hcnt, rfl, hcnt, [_], rfl⟩
  | pkFrame =>
    obtain ⟨hsize, hcnt⟩ : ¬ (s.wbLen.val = 0 ∨ 8191 ≤ s.wbLen.val) ∧ s.cnt = 0 := by
      simpa [raisedError, ite_eq_iff] using herror
    exact ⟨_, exec_pkFrame_eq ((sizeOk_padlen_iff _).2 (by omega)) hcnt, rfl, hcnt, _, rfl⟩
  | wbRd a =>
    obtain ⟨t, hexec, hframe⟩ := exec_wbRd_frame a s
    exact ⟨t, hexec, by rw [hframe]; rfl, trivial⟩
  | xfb =>
    refine ⟨_, rfl, ?_, rfl⟩
    rw [State.transformFrom_state]
    rfl
  | clrerr => exact ⟨_, rfl, rfl, rfl, rfl⟩
  | wbWr a b => exact ⟨_, rfl, rfl, rfl⟩
  | msgEmit => exact ⟨_, rfl, rfl, rfl⟩
  | _ => exact ⟨_, rfl, rfl, trivial⟩

/-- A command that raises an error does that alone. -/
theorem exec_of_error {i : Instr} {s : State} {e : ErrorKind} (herror : raisedError s i = some e) :
    exec i s = .next (s.raise e i.opcode) := by
  have hi : i ≠ .clrerr := by
    rintro rfl
    cases herror
  have hstatus := exec_status hi s
  rwa [herror] at hstatus

theorem raise_eq_frame {i : Instr} {s : State} {e : ErrorKind} (herror : raisedError s i = some e)
    (op : Byte) : s.raise e op = frame i s (s.raise e op) := by
  rw [s.raise_eq e op]
  cases i with
  | msgClr | ckClr => cases herror
  | _ => rfl

/-- Every command answers a next state (60_exceptions.md R184). -/
theorem exec_total (i : Instr) (s : State) : ∃ t, exec i s = .next t := by
  cases herror : raisedError s i with
  | none =>
    obtain ⟨t, hexec, -⟩ := exec_of_noError herror
    exact ⟨t, hexec⟩
  | some e => exact ⟨_, exec_of_error herror⟩

/-- What a command leaves: its error raised, or its effect. -/
theorem exec_cases {i : Instr} {s t : State} (hexec : exec i s = .next t) :
    (∃ e, t = s.raise e i.opcode ∧ raisedError s i = some e) ∨ t = frame i s t ∧ Effect s t i := by
  cases herror : raisedError s i with
  | none =>
    obtain ⟨u, hu, heffect⟩ := exec_of_noError herror
    cases hexec.symm.trans hu
    exact .inr heffect
  | some e =>
    cases hexec.symm.trans (exec_of_error herror)
    exact .inl ⟨e, rfl, rfl⟩

/-- A command changes no field but those of its frame, whether it completes or raises an error. -/
theorem exec_eq_frame {i : Instr} {s t : State} (hexec : exec i s = .next t) : t = frame i s t := by
  rcases exec_cases hexec with ⟨e, ht, herror⟩ | ⟨hframe, -⟩
  · rw [ht]
    exact raise_eq_frame herror _
  · exact hframe

/-- Settles O21: outside its list, a register is no field of the command's frame. -/
theorem registersHaveNoOtherWriters : Obligations.RegistersHaveNoOtherWriters := by
  intro i s t hexec
  rw [exec_eq_frame hexec]
  cases i <;> simp [frame]

/-- Settles O22: outside its list, a buffer, a length or PKT_OUT is no field of the command's frame; the
waiting events are a field of none. -/
theorem buffersHaveNoOtherWriters : Obligations.BuffersHaveNoOtherWriters := by
  intro i s t hexec
  rw [exec_eq_frame hexec]
  cases i <;> simp [frame]

/-! ### What a word and a step do -/

theorem exec_inputs {i : Instr} {s t : State} (hexec : exec i s = .next t) : t.inputs = s.inputs := by
  obtain ⟨-, -, -, -, hinputs⟩ := buffersHaveNoOtherWriters i s t hexec
  exact hinputs

@[simp] theorem State.raise_inputs (e : ErrorKind) (op : Byte) (s : State) :
    (s.raise e op).inputs = s.inputs := by
  rw [s.raise_eq e op]

/-- Every word goes on to a next state, and takes no other event. -/
theorem runWord_total (w : Word) (s : State) : ∃ t, runWord w s = .next t ∧ t.inputs = s.inputs := by
  cases hdecode : decode w with
  | error _ => exact ⟨_, runWord_of_error hdecode s, s.raise_inputs _ _⟩
  | ok i =>
    obtain ⟨t, hexec⟩ := exec_total i s
    exact ⟨t, (runWord_of_ok hdecode s).trans hexec, exec_inputs hexec⟩

/-- What a step from `s` to `t` can be: one way for each event that the block takes, or idle. -/
inductive StepTo (s t : State) : Prop
  /-- No event waits (60_exceptions.md R193). -/
  | idle (hinputs : s.inputs = []) (ht : t = s)
  /-- The host's word (10_state.md R21). -/
  | command (w : Word) (rest : List PortEvent) (hinputs : s.inputs = .command w :: rest)
      (hrun : runWord w { s with inputs := rest } = .next t)
  /-- A reset between two commands (70_reset_and_hazards.md R200). -/
  | reset (rest : List PortEvent) (hinputs : s.inputs = .reset :: rest)
      (ht : t = ({ s with inputs := rest } : State).applyReset)
  /-- A reset during a command that would have gone on to `u` (R201). -/
  | resetDuring (w : Word) (rest : List PortEvent) (u : State)
      (hinputs : s.inputs = .resetDuring w :: rest)
      (hrun : runWord w { s with inputs := rest } = .next u)
      (ht : t = ({ s with inputs := rest } : State).abandonTo u)

theorem stepTo_of_step {s t : State} (hstep : step s = .next t) : StepTo s t := by
  match hinputs : s.inputs with
  | [] =>
    cases hstep.symm.trans (idleBlockHoldsState s hinputs)
    exact .idle hinputs rfl
  | .command w :: rest =>
    rw [step_of_inputs_cons hinputs] at hstep
    exact .command w rest hinputs hstep
  | .reset :: rest =>
    cases hstep.symm.trans (step_reset hinputs)
    exact .reset rest hinputs rfl
  | .resetDuring w :: rest =>
    obtain ⟨u, hrun, -⟩ := runWord_total w { s with inputs := rest }
    cases hstep.symm.trans (step_resetDuring hinputs hrun)
    exact .resetDuring w rest u hinputs hrun rfl
  | .otherAgent w :: rest =>
    cases hstep.symm.trans (secondHostIsRefused s w rest hinputs)

/-! ### The statements on a step -/

@[simp] theorem State.abandonTo_inputs (s u : State) : (s.abandonTo u).inputs = u.inputs := rfl

/-- What a reset during a command adds to PKT_OUT comes after the packets already there. -/
theorem State.abandonTo_pktOut_prefix {w : Word} {s u : State} (hrun : runWord w s = .next u) :
    s.pktOut <+: (s.abandonTo u).pktOut := by
  obtain ⟨pkts, hpkts⟩ := runWord_pktOut_prefix hrun
  rw [State.abandonTo_eq hpkts]
  exact List.prefix_append _ _

/-- Settles O23: a word keeps what PKT_OUT holds at its front, so does a reset, during a command or
not. -/
theorem packetOutputIsAppendOnly : Obligations.PacketOutputIsAppendOnly := by
  intro s t hstep
  have hprefix : s.pktOut <+: t.pktOut := by
    cases stepTo_of_step hstep with
    | idle _ ht => rw [ht]
    | command w rest _ hrun => exact runWord_pktOut_prefix (s := { s with inputs := rest }) hrun
    | reset rest _ ht => rw [ht, State.applyReset_pktOut]
    | resetDuring w rest u _ hrun ht =>
      rw [ht]
      exact State.abandonTo_pktOut_prefix (s := { s with inputs := rest }) hrun
  obtain ⟨pkts, hpkts⟩ := hprefix
  exact ⟨pkts, hpkts.symm⟩

/-- With an error recorded, a word other than CLRERR's raises nothing that is recorded. -/
theorem runWord_keeps_error {w : Word} {s t : State} (herror : s.ecode ≠ 0) (hw : w ≠ 0x02000000)
    (hrun : runWord w s = .next t) : t.ecode = s.ecode ∧ t.eop = s.eop := by
  rcases runWord_status hw s with ⟨u, hu, hstatus⟩ | ⟨e, hraise⟩
  · cases hrun.symm.trans hu
    exact hstatus
  · cases hrun.symm.trans hraise
    rw [State.raise_of_recorded herror]
    exact ⟨rfl, rfl⟩

/-- Settles O10: the step runs the word, and `runWord_keeps_error` says the rest. -/
theorem firstErrorIsKept : Obligations.FirstErrorIsKept := by
  intro s t w rest hinputs herror hw hstep
  rw [step_of_inputs_cons hinputs] at hstep
  exact runWord_keeps_error (s := { s with inputs := rest }) herror hw hstep

theorem State.ef_eq_true_iff (s : State) : s.ef = true ↔ s.ecode ≠ 0 := bne_iff_ne

/-- Settles O11: of the events a step can take, an idle step and a word other than CLRERR's keep
ECODE. -/
theorem errFallsOnlyByClrerrOrReset : Obligations.ErrFallsOnlyByClrerrOrReset := by
  intro s t hstep hset hclear
  have herror : s.ecode ≠ 0 := s.ef_eq_true_iff.1 hset
  have hchanged : t.ecode ≠ s.ecode := by
    intro hsame
    have hstays : t.ef = true := t.ef_eq_true_iff.2 (hsame ▸ herror)
    exact Bool.false_ne_true (hclear.symm.trans hstays)
  cases stepTo_of_step hstep with
  | idle _ ht => exact absurd (congrArg State.ecode ht) hchanged
  | command w rest hinputs hrun =>
    by_cases hw : w = 0x02000000
    · exact .inl (by rw [hinputs, hw, List.head?_cons])
    · exact absurd (runWord_keeps_error (s := { s with inputs := rest }) herror hw hrun).1 hchanged
  | reset rest hinputs _ => exact .inr (.inl (by rw [hinputs, List.head?_cons]))
  | resetDuring w rest u hinputs _ _ => exact .inr (.inr ⟨w, by rw [hinputs, List.head?_cons]⟩)

/-- One host goes on driving the ports when the oldest event has been taken. -/
theorem SingleHost.of_cons {s t : State} {e : PortEvent} (hs : SingleHost s)
    (hinputs : s.inputs = e :: t.inputs) : SingleHost t := by
  intro w hmem
  exact hs w (hinputs ▸ List.mem_cons_of_mem e hmem)

/-- Settles O17: with no event the step is idle; every event but another agent's has a next state, with
the later events still waiting. That emission never stalls is log entry 7. -/
theorem blockNeverStops : Obligations.BlockNeverStops := by
  intro s hs
  match hinputs : s.inputs with
  | [] => exact ⟨s, idleBlockHoldsState s hinputs, hs⟩
  | .command w :: rest =>
    obtain ⟨t, hrun, hrest⟩ := runWord_total w { s with inputs := rest }
    exact ⟨t, (step_of_inputs_cons hinputs).trans hrun, hs.of_cons (by rw [hinputs, hrest])⟩
  | .reset :: rest => exact ⟨_, step_reset hinputs, hs.of_cons hinputs⟩
  | .resetDuring w :: rest =>
    obtain ⟨u, hrun, hrest⟩ := runWord_total w { s with inputs := rest }
    exact ⟨_, step_resetDuring hinputs hrun,
      hs.of_cons (by rw [hinputs, State.abandonTo_inputs, hrest])⟩
  | .otherAgent w :: rest => exact absurd (hinputs ▸ List.mem_cons_self) (hs w)

end Sys2Proof.Machine
end

section
/-! PROOFS. Each part of the invariant over each command, the invariant over steps and runs, and the
statements of 10_state.md R23, R25, R27, R35 and 70_reset_and_hazards.md R205 on it. -/

namespace Sys2Proof.Machine

/-! ### Parts that a command does not touch -/

theorem ColumnsOk.congr {s t : State} (h : ColumnsOk s) (hcb : t.cb = s.cb)
    (hcnt : t.cbCnt = s.cbCnt) : ColumnsOk t := by
  refine ⟨?_, ?_, ?_⟩
  · rw [hcb]; exact h.wf
  · rw [hcb, hcnt]; exact h.written
  · rw [hcb]; exact h.packed

theorem StatusOk.congr {s t : State} (h : StatusOk s) (hcode : t.ecode = s.ecode)
    (hop : t.eop = s.eop) : StatusOk t := by
  refine ⟨?_, ?_⟩
  · rw [hcode]; exact h.codes
  · rw [hcode, hop]; exact h.quiet

/-- The invariant speaks of STATUS, ACC, CNT, PBUF, the buffers and PKT_OUT alone. -/
theorem Inv.with_inputs {s : State} (h : Inv s) (rest : List PortEvent) :
    Inv { s with inputs := rest } :=
  ⟨h.memory, h.columns.congr rfl rfl, h.status.congr rfl rfl, h.accumulator, h.packets⟩

/-! ### STATUS (10_state.md R23) -/

/-- A recorded error has a code of 1 to 4. -/
theorem StatusOk.raise {s : State} (h : StatusOk s) (e : ErrorKind) (op : Byte) :
    StatusOk (s.raise e op) := by
  rcases s.raise_cases e op with ⟨-, hraise⟩ | ⟨-, hraise⟩
  · rw [hraise]
    exact ⟨e.code_le, fun hzero => absurd hzero e.code_ne_zero⟩
  · rwa [hraise]

/-- Raising an error keeps the invariant. -/
theorem Inv.raise {s : State} (h : Inv s) (e : ErrorKind) (op : Byte) : Inv (s.raise e op) := by
  have hstatus := h.status.raise e op
  rw [s.raise_eq e op] at hstatus ⊢
  exact ⟨h.memory, h.columns.congr rfl rfl, hstatus, h.accumulator, h.packets⟩

/-- STATUS after a command: kept, cleared by CLRERR, or an error recorded. -/
theorem StatusOk.exec {i : Instr} {s t : State} (h : StatusOk s) (hexec : exec i s = .next t) :
    StatusOk t := by
  by_cases hi : i = .clrerr
  · subst hi
    cases hexec
    exact ⟨Nat.zero_le _, fun _ => rfl⟩
  · have hstatus := exec_status hi s
    cases herror : raisedError s i with
    | none =>
      rw [herror] at hstatus
      obtain ⟨u, hu, hcode, hop⟩ := hstatus
      cases hexec.symm.trans hu
      exact h.congr hcode hop
    | some e =>
      cases hexec.symm.trans (exec_of_error herror)
      exact h.raise e _

/-! ### The wire buffer (20_memory.md R50) -/

theorem Memory.wf_exec {i : Instr} {s t : State} (h : Memory.wf s.wb) (hframe : t = frame i s t)
    (heffect : Effect s t i) : Memory.wf t.wb := by
  cases i with
  | wbWr a b =>
    rw [heffect]
    exact Memory.wf_write a.isLt b h
  | xfb =>
    rw [heffect]
    exact State.wf_transformFrom (by have := s.wbLen.isLt; omega) h
  | msgEmit =>
    rw [heffect]
    refine Store.wf_writeBlock ?_ h
    rw [List.length_map, State.serialise_length]
    have hcap := s.cbCnt.isLt
    have := colCap_eq
    have := wbCap_eq
    omega
  | _ =>
    rw [hframe]
    exact h

/-! ### The column buffer (10_state.md R27; 42_message.md R120) -/

theorem pack_packed (f : Colour) (p : BitVec 11) : (pack f p).extractLsb' 11 2 = 0#2 := by
  rw [pack, BitVec.extractLsb'_append_eq_of_le (by decide)]
  exact BitVec.extractLsb'_append_eq_right

/-- Appending packed words at CB_CNT, and counting them, keeps the column buffer sound. -/
theorem ColumnsOk.append {s t : State} {ws : List Half} (h : ColumnsOk s)
    (hpacked : ∀ w ∈ ws, w.extractLsb' 11 2 = 0#2) (hcnt : t.cbCnt.val = s.cbCnt.val + ws.length)
    (hcb : t.cb = Store.writeBlock s.cbCnt.val ws s.cb) : ColumnsOk t := by
  have hfits : s.cbCnt.val + ws.length ≤ Config.colCap := hcnt ▸ Nat.le_of_lt_succ t.cbCnt.isLt
  have hread (k : Nat) : Store.read k t.cb =
      if s.cbCnt.val ≤ k then (ws[k - s.cbCnt.val]?).or (Store.read k s.cb) else Store.read k s.cb := by
    rw [hcb, Store.read_writeBlock]
  refine ⟨hcb ▸ Store.wf_writeBlock hfits h.wf, fun k hk => ?written, fun k w hw => ?packed⟩
  case written =>
    rw [hread]
    split
    · next hnew => rw [List.getElem?_eq_getElem (by omega), Option.some_or, Option.isSome_some]
    · next hold => exact h.written k (not_le.1 hold)
  case packed =>
    rw [hread] at hw
    split at hw
    · rcases Option.or_eq_some_iff.1 hw with hnew | ⟨-, hold⟩
      · exact hpacked w (List.mem_of_getElem? hnew)
      · exact h.packed k w hold
    · exact h.packed k w hw

theorem ColumnsOk.exec {i : Instr} {s t : State} (h : ColumnsOk s) (hframe : t = frame i s t)
    (heffect : Effect s t i) : ColumnsOk t := by
  cases i with
  | glyph f =>
    obtain ⟨hcnt, hcb⟩ := heffect
    refine h.append (ws := glyphWords s.gr f) (fun w hw => ?_) ?_ hcb
    · obtain ⟨c, -, rfl⟩ := List.mem_map.1 hw
      exact pack_packed f _
    · rw [hcnt, glyphWords_length]
  | colApp f p =>
    obtain ⟨hcnt, hcb⟩ := heffect
    refine h.append (ws := [pack f p]) (fun w hw => ?_) hcnt hcb
    rw [List.mem_singleton.1 hw]
    exact pack_packed f p
  | msgClr =>
    rw [hframe]
    exact ⟨h.wf, fun k hk => absurd hk k.not_lt_zero, h.packed⟩
  | _ =>
    rw [hframe]
    exact h.congr rfl rfl

/-! ### The accumulator (10_state.md R25) -/

theorem sumBytes_eq_sum (bs : List Byte) : sumBytes bs = bs.sum := rfl

/-- The bytes pushed once one more has been stored behind them. -/
theorem take_set_succ (p : Payload) {n : Nat} (h : n < 7) (b : Byte) :
    (p.set n b h).toList.take (n + 1) = p.toList.take n ++ [b] := by
  have hlen : n < (p.toList.set n b).length := by simpa using h
  rw [Vector.toList_set, List.take_succ_eq_append_getElem hlen, List.getElem_set_self,
    List.take_set_of_le le_rfl]

theorem AccumulatorOk.of_empty {s : State} (hacc : s.acc = 0) (hcnt : s.cnt = 0) : AccumulatorOk s := by
  rw [AccumulatorOk, hacc, hcnt]
  rfl

theorem AccumulatorOk.exec {i : Instr} {s t : State} (h : AccumulatorOk s) (hframe : t = frame i s t)
    (heffect : Effect s t i) : AccumulatorOk t := by
  cases i with
  | ckPush b =>
    obtain ⟨hroom, hpbuf, hacc, hcnt⟩ := heffect
    rw [AccumulatorOk, hpbuf, hacc, hcnt, count_succ_toNat hroom, take_set_succ, sumBytes_eq_sum,
      List.sum_append, List.sum_singleton, ← sumBytes_eq_sum, ← h]
  | ckClr =>
    rw [hframe]
    exact .of_empty rfl rfl
  | ckFin =>
    obtain ⟨-, -, hacc, hcnt⟩ := heffect
    exact .of_empty hacc hcnt
  | pkInit | pkFrame =>
    obtain ⟨hcnt, -⟩ := heffect
    rw [AccumulatorOk, hcnt] at h
    rw [hframe]
    exact .of_empty h hcnt
  | _ =>
    rw [hframe]
    exact h

/-! ### PKT_OUT (43_packet.md R140, R141) -/

theorem PacketsOk.append_payloads {s t : State} {ps : List Payload} (h : PacketsOk s)
    (hout : t.pktOut = s.pktOut ++ ps.map packetOf) : PacketsOk t := by
  intro p hp
  rw [hout, List.mem_append] at hp
  rcases hp with hold | hnew
  · exact h p hold
  · obtain ⟨q, -, rfl⟩ := List.mem_map.1 hnew
    exact ⟨q, rfl⟩

theorem PacketsOk.exec {i : Instr} {s t : State} (h : PacketsOk s) (hsum : AccumulatorOk s)
    (hframe : t = frame i s t) (heffect : Effect s t i) : PacketsOk t := by
  cases i with
  | ckFin =>
    obtain ⟨hfull, hout, -⟩ := heffect
    rw [hsum.acc_eq_checksum hfull] at hout
    exact h.append_payloads (ps := [s.pbuf]) hout
  | pkInit | pkFrame =>
    obtain ⟨-, ps, hout⟩ := heffect
    exact h.append_payloads hout
  | _ =>
    rw [hframe]
    exact h

/-! ### The invariant over commands, steps and runs -/

theorem Inv.exec {i : Instr} {s t : State} (h : Inv s) (hexec : exec i s = .next t) : Inv t := by
  rcases exec_cases hexec with ⟨e, ht, -⟩ | ⟨hframe, heffect⟩
  · rw [ht]
    exact h.raise e _
  · exact ⟨Memory.wf_exec h.memory hframe heffect, h.columns.exec hframe heffect,
      h.status.exec hexec, h.accumulator.exec hframe heffect,
      h.packets.exec h.accumulator hframe heffect⟩

theorem Inv.runWord {w : Word} {s t : State} (h : Inv s) (hrun : runWord w s = .next t) : Inv t := by
  cases hdecode : decode w with
  | ok i => exact h.exec ((runWord_of_ok hdecode s).symm.trans hrun)
  | error _ =>
    cases hrun.symm.trans (runWord_of_error hdecode s)
    exact h.raise _ _

/-- Settles O18: the reset state has empty buffers, no error, no byte pushed and no packet. -/
theorem resetStateIsSound : Obligations.ResetStateIsSound where
  memory := Store.wf_nil _
  columns := ⟨Store.wf_nil _, fun k hk => absurd hk k.not_lt_zero, fun k w hread => by cases hread⟩
  status := ⟨by decide, fun _ => rfl⟩
  accumulator := .of_empty rfl rfl
  packets := fun p hp => absurd hp List.not_mem_nil

/-- A state of reset values is sound with any packets that are. -/
theorem Inv.of_reset {t : State} {out : List Packet} {rest : List PortEvent} {n : Nat}
    (hout : PacketsOk { State.reset with pktOut := out })
    (ht : t = { State.reset with pktOut := out, inputs := rest, draws := n }) : Inv t := by
  have hreset := resetStateIsSound
  rw [ht]
  exact ⟨hreset.memory, hreset.columns.congr rfl rfl, hreset.status.congr rfl rfl,
    hreset.accumulator, hout⟩

/-- Settles O19: the invariant by the event the step takes; the packets that a reset during a command
keeps are among those that the command would have left. -/
theorem everyStepKeepsInvariant : Obligations.EveryStepKeepsInvariant := by
  intro s t h hstep
  cases stepTo_of_step hstep with
  | idle _ ht => rwa [ht]
  | command w rest _ hrun => exact (h.with_inputs rest).runWord hrun
  | reset rest _ ht => exact .of_reset h.packets ht
  | resetDuring w rest u _ hrun ht =>
    have hpackets := ((h.with_inputs rest).runWord hrun).packets
    obtain ⟨pkts, hpkts⟩ := runWord_pktOut_prefix hrun
    rw [State.abandonTo_eq hpkts] at ht
    refine .of_reset (fun p hp => hpackets p ?_) ht
    rw [← hpkts]
    exact ((List.take_sublist _ pkts).append_left s.pktOut).subset hp

/-- A run of one more step from a state whose step goes on. -/
theorem core_run_succ {k : Nat} {s u : State} (hstep : step s = .next u) :
    Sys2Proof.core.run (k + 1) s = Sys2Proof.core.run k u := by
  have hcore : Sys2Proof.core.step s = .next u := hstep
  simp only [Host.Core.run, hcore]

/-- Settles O20: by induction on the number of steps, each of which goes on and keeps the invariant.
That emission never stalls is log entry 7. -/
theorem runsStaySound : Obligations.RunsStaySound := by
  intro k
  induction k with
  | zero => exact fun s h hs => ⟨s, rfl, h, hs⟩
  | succ k ih =>
    intro s h hs
    obtain ⟨u, hstep, hu⟩ := blockNeverStops s hs
    obtain ⟨t, hrun, hsound⟩ := ih u (everyStepKeepsInvariant s u h hstep) hu
    refine ⟨t, ?_, hsound⟩
    rw [core_run_succ hstep, hrun]

end Sys2Proof.Machine
end

section
/-! PROOFS. The commands that read or transform the wire buffer, the same commands from a state with
another STATUS, and the statements of 44_control.md R164, 40_transform.md R102 and 10_state.md R24. -/

namespace Sys2Proof.Machine

/-! ### WB_RD (44_control.md R164) -/

theorem exec_wbRd_of_written {a : BitVec 13} {b : Byte} {s : State}
    (h : Memory.read s.wb a.toNat = some b) :
    exec (.wbRd a) s = .next { s with res := b.setWidth 32 } := by
  rw [exec, execWbRd, State.readWB, h, State.setRes]

theorem exec_wbRd_of_unwritten {a : BitVec 13} {s : State}
    (h : Memory.read s.wb a.toNat = none) : exec (.wbRd a) s = .next
      { s with res := (Config.wbDraw s.draws).setWidth 32, draws := s.draws + 1 } := by
  rw [exec, execWbRd, State.readWB, h, State.setRes, State.drew]

/-- Settles O28: the byte that a command has written, or a draw; the words of the opcode by its one
row. -/
theorem wbRdReadsOneByte : Obligations.WbRdReadsOneByte :=
  ⟨fun _ _ _ => exec_wbRd_of_written, fun _ _ => exec_wbRd_of_unwritten,
    fun x s => step_issue_of_decode (decode_wbRd x) s⟩

/-! ### XFB (40_transform.md R102) -/

theorem exec_xfb (s : State) : exec .xfb s = .next (s.transformFrom 0 s.wbLen.val) := rfl

/-- XFB in one state, with what it draws and what every byte of WB then reads as. -/
theorem exec_xfb_read (s : State) : ∃ t : State, exec .xfb s = .next t ∧
    t = { s with wb := t.wb, draws := s.draws + s.unwrittenBelow s.wbLen.val } ∧
    ∀ a, Memory.read t.wb a = if a < s.wbLen.val then
        some (byteTransform ((Memory.read s.wb a).getD
          (Config.wbDraw (s.draws + s.unwrittenBelow a))))
      else Memory.read s.wb a := by
  refine ⟨_, exec_xfb s, ?frame, fun a => ?byte⟩
  case frame => rw [unwrittenBelow_eq, ← State.transformFrom_draws, ← State.transformFrom_state]
  case byte =>
    rw [State.transformFrom_read, Nat.zero_add, Nat.sub_zero, ← unwrittenBelow_eq]
    simp only [Nat.zero_le, true_and]

/-- Settles O32: the two sides of WB_LEN; the words of the opcode by its one row. -/
theorem xfbTransformsBuffer : Obligations.XfbTransformsBuffer := by
  refine ⟨fun s => ?effect, fun x s => step_issue_of_decode (decode_xfb x) s⟩
  case effect =>
    obtain ⟨t, hexec, hframe, hread⟩ := exec_xfb_read s
    exact ⟨t, hexec, hframe, fun a ha => by rw [hread, if_pos ha, byteTransform_eq_sub],
      fun a ha => by rw [hread, if_neg ha.not_gt]⟩

theorem exec_xfb_wf {s t : State} (h : Memory.wf s.wb) (hexec : exec .xfb s = .next t) :
    Memory.wf t.wb := by
  cases hexec.symm.trans (exec_xfb s)
  exact State.wf_transformFrom (by have := s.wbLen.isLt; omega) h

/-- A buffer whose bytes have all been written is read without a draw. -/
theorem State.unwrittenBelow_of_written {s : State} {n : Nat}
    (h : ∀ a, a < n → (Memory.read s.wb a).isSome = true) : s.unwrittenBelow n = 0 := by
  rw [unwrittenBelow_eq]
  exact unwrittenIn_eq_zero fun k _ hk => h k (by omega)

/-- XFB draws nothing where every byte below WB_LEN has been written, and each such byte is then its
transform. -/
theorem exec_xfb_of_written {s : State}
    (h : ∀ a, a < s.wbLen.val → (Memory.read s.wb a).isSome = true) :
    ∃ t : State, exec .xfb s = .next t ∧ t = { s with wb := t.wb } ∧
      ∀ a, Memory.read t.wb a = if a < s.wbLen.val then
          (Memory.read s.wb a).map byteTransform else Memory.read s.wb a := by
  obtain ⟨t, hexec, hframe, hread⟩ := exec_xfb_read s
  rw [State.unwrittenBelow_of_written h, Nat.add_zero] at hframe
  refine ⟨t, hexec, hframe, fun a => (hread a).trans (ite_congr rfl (fun ha => ?_) fun _ => rfl)⟩
  obtain ⟨b, hb⟩ := Option.isSome_iff_exists.1 (h a ha)
  rw [hb, Option.getD_some, Option.map_some]

/-- Settles O33: the second XFB transforms each byte back, so that WB reads as before, and a canonical
buffer is what it reads as. -/
theorem xfbTwiceRestores : Obligations.XfbTwiceRestores := by
  intro s hwf hwritten
  obtain ⟨t, ht, htframe, htread⟩ := exec_xfb_of_written hwritten
  have hlen : t.wbLen = s.wbLen := by rw [htframe]
  have htwritten : ∀ a, a < t.wbLen.val → (Memory.read t.wb a).isSome = true := by
    intro a ha
    rw [hlen] at ha
    rw [htread, if_pos ha, Option.isSome_map]
    exact hwritten a ha
  obtain ⟨u, hu, huframe, huread⟩ := exec_xfb_of_written htwritten
  have hread (a : Nat) : Memory.read u.wb a = Memory.read s.wb a := by
    rw [huread, hlen, htread]
    split
    · rw [Option.map_map, byteTransform_involutive.comp_self, Option.map_id, id]
    · rfl
  have hwb : u.wb = s.wb := Store.ext_of_read (exec_xfb_wf (exec_xfb_wf hwf ht) hu) hwf hread
  refine ⟨t, ht, hu.trans (congrArg _ ?_)⟩
  rw [huframe, hwb, htframe]

/-! ### Commands from another STATUS (10_state.md R24) -/

theorem State.readWB_setStatus (a : Nat) (e : BitVec 4) (o : Byte) (s : State) :
    (s.setStatus e o).readWB a = ((s.readWB a).1, (s.readWB a).2.setStatus e o) := by
  rw [State.readWB, State.readWB, State.setStatus_wb]
  cases Memory.read s.wb a <;> rfl

theorem State.readBlock_setStatus (a n : Nat) (e : BitVec 4) (o : Byte) (s : State) :
    ((s.setStatus e o).readBlock a n).1 = (s.readBlock a n).1 := by
  induction n generalizing a s with
  | zero => rfl
  | succ n ih => rw [State.readBlock, State.readBlock, State.readWB_setStatus, ih]

theorem State.transformFrom_setStatus (a n : Nat) (e : BitVec 4) (o : Byte) (s : State) :
    (s.setStatus e o).transformFrom a n = (s.transformFrom a n).setStatus e o := by
  induction n generalizing a s with
  | zero => rfl
  | succ n ih =>
    have hbyte : (s.setStatus e o).transformByte a = (s.transformByte a).setStatus e o := by
      rw [State.transformByte, State.readWB_setStatus]
      rfl
    rw [State.transformFrom, State.transformFrom, hbyte, ih]

theorem State.appendColumns_setStatus (ws : List Half) (e : BitVec 4) (o : Byte) (s : State) :
    (s.setStatus e o).appendColumns ws = (s.appendColumns ws).map (State.setStatus e o) := by
  by_cases hfits : s.cbCnt.val + ws.length ≤ Config.colCap
  · rw [State.appendColumns, State.appendColumns, dif_pos hfits]
    exact dif_pos hfits
  · rw [State.appendColumns, State.appendColumns, dif_neg hfits]
    exact dif_neg hfits

/-- Only selector 0 reads STATUS (10_state.md R31). -/
theorem State.register_setStatus {sel : BitVec 4} (h : sel ≠ 0) (e : BitVec 4) (o : Byte) (s : State) :
    (s.setStatus e o).register sel = s.register sel := by
  have hpos : sel.toNat ≠ 0 := fun hzero => h (BitVec.eq_of_toNat_eq hzero)
  unfold State.register
  generalize sel.toNat = m at hpos
  match m with
  | 0 => exact absurd rfl hpos
  | 1 | 2 | 3 | 4 | 5 | 6 | _ + 7 => rfl

/-- Two answers that go on to states that differ in STATUS alone. -/
def DifferInStatus (a b : Answer) : Prop :=
  ∃ t u : State, a = .next t ∧ b = .next u ∧ u = { t with ecode := u.ecode, eop := u.eop }

theorem differInStatus_setStatus (t : State) (e : BitVec 4) (o : Byte) :
    DifferInStatus (.next t) (.next (t.setStatus e o)) := ⟨_, _, rfl, rfl, rfl⟩

/-- An error raised changes STATUS alone, whatever STATUS was. -/
theorem differInStatus_raise (err : ErrorKind) (op : Byte) (e : BitVec 4) (o : Byte) (s : State) :
    DifferInStatus (.next (s.raise err op)) (.next ((s.setStatus e o).raise err op)) := by
  refine ⟨_, _, rfl, rfl, ?_⟩
  rw [s.raise_eq err op]
  exact State.raise_eq err op (s.setStatus e o)

/-- Every command but RD 0 goes the same way whatever STATUS is, to the same values. -/
theorem exec_differInStatus {i : Instr} (hrd : i ≠ .rd 0) (e : BitVec 4) (o : Byte) (s : State) :
    DifferInStatus (exec i s) (exec i (s.setStatus e o)) := by
  cases i with
  | rd sel =>
    have hsel : sel ≠ 0 := fun hzero => hrd (congrArg _ hzero)
    rw [exec, exec, execRd, execRd, State.register_setStatus hsel]
    cases s.register sel with
    | some v => exact differInStatus_setStatus (s.setRes v) e o
    | none => exact differInStatus_raise _ _ e o s
  | clrerr => exact differInStatus_setStatus s.clearError 0 0
  | wbRd a =>
    rw [exec, exec, execWbRd, execWbRd, State.readWB_setStatus]
    exact differInStatus_setStatus _ e o
  | wbSetlen n =>
    rcases le_or_gt n.toNat Config.wbCap with hfits | hlong
    · rw [exec_wbSetlen_of_fits hfits, exec_wbSetlen_of_fits hfits]
      exact differInStatus_setStatus _ e o
    · rw [exec_wbSetlen_of_tooLong hlong, exec_wbSetlen_of_tooLong hlong]
      exact differInStatus_raise _ _ e o s
  | xfb =>
    rw [exec_xfb, exec_xfb, State.transformFrom_setStatus]
    exact differInStatus_setStatus _ e o
  | glyph f =>
    rw [exec, exec, execGlyph, execGlyph, State.appendColumns_setStatus, State.setStatus_gr]
    cases s.appendColumns (glyphWords s.gr f) with
    | some t => exact differInStatus_setStatus t e o
    | none => exact differInStatus_raise _ _ e o s
  | colApp f p =>
    rw [exec, exec, execColApp, execColApp, State.appendColumns_setStatus]
    cases s.appendColumns [pack f p] with
    | some t => exact differInStatus_setStatus t e o
    | none => exact differInStatus_raise _ _ e o s
  | ckPush b =>
    by_cases hcnt : s.cnt = 7
    · rw [exec_ckPush_of_full b hcnt, exec_ckPush_of_full b (s := s.setStatus e o) hcnt]
      exact differInStatus_raise _ _ e o s
    · rw [exec_ckPush_of_room b hcnt, exec_ckPush_of_room b (s := s.setStatus e o) hcnt]
      exact differInStatus_setStatus _ e o
  | ckFin =>
    by_cases hcnt : s.cnt = 7
    · rw [exec_ckFin_of_full hcnt, exec_ckFin_of_full (s := s.setStatus e o) hcnt]
      exact differInStatus_setStatus _ e o
    · rw [exec_ckFin_of_short hcnt, exec_ckFin_of_short (s := s.setStatus e o) hcnt]
      exact differInStatus_raise _ _ e o s
  | pkInit h =>
    by_cases hsize : sizeOk h.toNat = true
    · by_cases hcnt : s.cnt = 0
      · rw [exec_pkInit_of_idle hsize hcnt, exec_pkInit_of_idle (s := s.setStatus e o) hsize hcnt]
        exact differInStatus_setStatus _ e o
      · rw [exec_pkInit_of_pushed hsize hcnt, exec_pkInit_of_pushed (s := s.setStatus e o) hsize hcnt]
        exact differInStatus_raise _ _ e o s
    · rw [exec_pkInit_of_badSize _ hsize, exec_pkInit_of_badSize _ hsize]
      exact differInStatus_raise _ _ e o s
  | pkFrame =>
    by_cases hsize : sizeOk (padlen s.wbLen.val) = true
    · by_cases hcnt : s.cnt = 0
      · rw [exec_pkFrame_eq hsize hcnt, exec_pkFrame_eq (s := s.setStatus e o) hsize hcnt,
          State.readBlock_setStatus]
        exact differInStatus_setStatus _ e o
      · rw [exec_pkFrame_of_pushed hsize hcnt, exec_pkFrame_of_pushed (s := s.setStatus e o) hsize hcnt]
        exact differInStatus_raise _ _ e o s
    · rw [exec_pkFrame_of_badSize hsize, exec_pkFrame_of_badSize (s := s.setStatus e o) hsize]
      exact differInStatus_raise _ _ e o s
  | _ => exact differInStatus_setStatus _ e o

/-- Settles O12: every command but RD 0 by `exec_differInStatus`; RD 0 writes RES alone. -/
theorem statusNeverSteersCommands : Obligations.StatusNeverSteersCommands := by
  intro i s e o
  by_cases hrd : i = .rd 0
  · subst hrd
    exact ⟨_, _, exec_rd_of_register s.register_status, exec_rd_of_register (State.register_status _),
      fun hne => absurd rfl hne, fun _ => rfl⟩
  · obtain ⟨t, u, ht, hu, hdiffer⟩ := exec_differInStatus hrd e o s
    exact ⟨t, u, ht, hu, fun _ => hdiffer, fun h => absurd h hrd⟩

end Sys2Proof.Machine
end

section
/-! PROOFS. Packing and unpacking as inverses, a Message read back from its emission, the laws of the
checksum, the bucket and the order of packet bytes, and the statements of 42_message.md R129,
43_packet.md R140, R145 and R151 and 20_memory.md R52. -/

namespace Sys2Proof.Machine

/-! ### Packing and unpacking (42_message.md R129, first two laws) -/

/-- Each part of an unpacked word is the part of the packed Column that it was. -/
theorem unpack_pack (f : Colour) (p : BitVec 11) : unpack (pack f p) = cpValue f p := by
  obtain ⟨hg, hbl, hr, -, -⟩ := pack_flags f p
  have hpixels : (pack f p).extractLsb' 0 11 = p := BitVec.extractLsb'_append_eq_right
  rw [unpack, (extract_one_eq_ofBool_iff _ _ _).2 hg, (extract_one_eq_ofBool_iff _ _ _).2 hbl,
    (extract_one_eq_ofBool_iff _ _ _).2 hr, hpixels, cpValue]

/-- The mask of R129 drops bits 12 and 11. -/
theorem mask_column_getLsbD : ∀ k : Fin 16,
    (0xE7FF#16).getLsbD k.val = decide (k.val ≠ 11 ∧ k.val ≠ 12) := by decide

theorem pack_unpack (w : Half) :
    pack ⟨(unpack w).getLsbD 11, (unpack w).getLsbD 12, (unpack w).getLsbD 13⟩
      ((unpack w).extractLsb' 0 11) = w &&& 0xE7FF := by
  obtain ⟨hr, hg, hbl⟩ := unpack_flags w
  rw [hr, hg, hbl]
  obtain ⟨h15, h14, h13, h12, h11⟩ := pack_flags ⟨w.getLsbD 13, w.getLsbD 15, w.getLsbD 14⟩
    ((unpack w).extractLsb' 0 11)
  apply BitVec.eq_of_getLsbD_eq
  intro k hk
  rw [BitVec.getLsbD_and, BitVec.ofNat_eq_ofNat, mask_column_getLsbD ⟨k, hk⟩]
  by_cases hpixel : k < 11
  · have hkept : k ≠ 11 ∧ k ≠ 12 := by omega
    rw [pack_pixel _ _ hpixel, BitVec.getLsbD_extractLsb', Nat.zero_add, unpack_pixel w hpixel,
      decide_eq_true hpixel, decide_eq_true hkept, Bool.true_and, Bool.and_true]
  · interval_cases k
    · exact h11.trans (Bool.and_false _).symm
    · exact h12.trans (Bool.and_false _).symm
    · exact h13.trans (Bool.and_true _).symm
    · exact h14.trans (Bool.and_true _).symm
    · exact h15.trans (Bool.and_true _).symm

/-- Settles O42: the two directions. -/
theorem packAndUnpackAgree : Obligations.PackAndUnpackAgree := ⟨unpack_pack, pack_unpack⟩

/-! ### A Message read back (42_message.md R129, third law) -/

/-- After MSG_EMIT and XFB the wire buffer holds the serialised bytes themselves. -/
theorem exec_msgEmit_xfb (s : State) : ∃ t u : State, exec .msgEmit s = .next t ∧ exec .xfb t = .next u ∧
    ∀ (a : Nat) (b : Byte), (s.serialise s.cbCnt.val)[a]? = some b → Memory.read u.wb a = some b := by
  obtain ⟨t, hemit, -, hlen, -, hwb⟩ := exec_msgEmit s
  have hread {a : Nat} {b : Byte} (hb : (s.serialise s.cbCnt.val)[a]? = some b) :
      Memory.read t.wb a = some (byteTransform b) := by
    rw [hwb, Memory.read_transformed_of_getElem hb, byteTransform_eq_sub]
  have hin (a : Nat) : a < t.wbLen.val ↔ a < (s.serialise s.cbCnt.val).length := by
    rw [hlen, State.serialise_length]
  have hwritten : ∀ a, a < t.wbLen.val → (Memory.read t.wb a).isSome = true := by
    intro a ha
    rw [hread (List.getElem?_eq_getElem ((hin a).1 ha)), Option.isSome_some]
  obtain ⟨u, hxfb, -, hback⟩ := exec_xfb_of_written hwritten
  refine ⟨t, u, hemit, hxfb, fun a b hb => ?_⟩
  have ha : a < t.wbLen.val := (hin a).2 (List.getElem?_eq_some_iff.1 hb).1
  rw [hback, if_pos ha, hread hb, Option.map_some, byteTransform_involutive]

/-- The two bytes of a little-endian number below 2^16 (20_memory.md R51). -/
theorem le16_value {n : Nat} (h : n < 0x10000) :
    (BitVec.ofNat 8 (n % 256)).toNat + 256 * (BitVec.ofNat 8 (n / 256)).toNat = n := by
  rw [BitVec.toNat_ofNat, BitVec.toNat_ofNat]
  omega

/-- Settles O43: the header's count and each Column's word are bytes of the serialisation, which is what
the buffer holds. -/
theorem hostRecoversMessage : Obligations.HostRecoversMessage := by
  intro s hinv
  obtain ⟨t, u, hemit, hxfb, hread⟩ := exec_msgEmit_xfb s
  refine ⟨t, u, hemit, hxfb, ⟨_, _, hread 2 _ ?low, hread 3 _ ?high, le16_value ?small⟩,
    fun j hj => ?column⟩
  case low => exact (s.serialise_header _ (by decide)).trans (header_getElem _ (by decide))
  case high => exact (s.serialise_header _ (by decide)).trans (header_getElem _ (by decide))
  case small =>
    have hcnt := s.cbCnt.isLt
    have hcap := colCap_eq
    omega
  case column =>
    obtain ⟨w, hw⟩ := Option.isSome_iff_exists.1 (hinv.columns.written j hj)
    obtain ⟨hhigh, hlow⟩ := s.serialise_column s.cbCnt.val (j := s.cbCnt.val - 1 - j) (by omega)
    have hindex : s.cbCnt.val - 1 - (s.cbCnt.val - 1 - j) = j := by omega
    rw [hindex, State.column_of_read hw] at hhigh hlow
    exact ⟨w, _, _, hw, hread _ _ hhigh, hread _ _ hlow,
      ((eq_append_iff (v := 8) (w := 8) w _ _).2 ⟨rfl, rfl⟩).symm⟩

/-! ### The checksum (43_packet.md R140, R151) -/

theorem checksum_toNat (p : Payload) : (checksum p).toNat = (p[0].toNat + p[1].toNat + p[2].toNat +
    p[3].toNat + p[4].toNat + p[5].toNat + p[6].toNat) % 256 := by
  rw [checksum, sumBytes_toNat]
  match p with
  | ⟨⟨[b0, b1, b2, b3, b4, b5, b6]⟩, _⟩ =>
    simp [Nat.add_assoc]

/-- Replacing one byte changes the checksum by the difference of the bytes. -/
theorem checksum_set (p : Payload) {i : Nat} (h : i < 7) (b : Byte) :
    checksum (p.set i b h) = checksum p + (b - p[i]) := by
  have hlen : i < p.toList.length := by simpa using h
  rw [checksum, sumBytes_eq_sum, Vector.toList_set, List.sum_set', dif_pos hlen, checksum,
    sumBytes_eq_sum, neg_add_eq_sub, Vector.getElem_toList]

/-- Settles O44: the sum byte by byte; one byte's change by `checksum_set`, whose difference is not 0;
two changes whose differences cancel; a sum does not depend on the order. -/
theorem checksumLaws : Obligations.ChecksumLaws := by
  refine ⟨checksum_toNat, fun p i h b hb => ?changed, fun p => ?cancelled, fun p q hperm => ?reordered⟩
  case changed =>
    rw [checksum_set, Ne, add_eq_left, sub_eq_zero]
    exact hb
  case cancelled =>
    rw [checksum_set, checksum_set, Vector.getElem_set_ne _ _ (by decide), add_sub_cancel_left,
      sub_sub_cancel_left, add_neg_cancel_right]
  case reordered =>
    rw [checksum, checksum, sumBytes_eq_sum, sumBytes_eq_sum, hperm.sum_eq]

/-- Settles O49: the table's buckets by `mag_eq_bitLength`. -/
theorem magnitudeIsBitLength : Obligations.MagnitudeIsBitLength := fun _ => mag_eq_bitLength

/-! ### The packet on its port (20_memory.md R52) -/

theorem extract_byte_zero {n : Nat} (x : BitVec n) (b : Byte) :
    (x ++ b).extractLsb' (8 * 0) 8 = b :=
  BitVec.extractLsb'_append_eq_right

/-- Byte i + 1 of a concatenation is byte i of what stands above its lowest byte. -/
theorem extract_byte_succ {n : Nat} (x : BitVec n) (b : Byte) (i : Nat) :
    (x ++ b).extractLsb' (8 * (i + 1)) 8 = x.extractLsb' (8 * i) 8 := by
  rw [BitVec.extractLsb'_append_eq_of_le (by omega), Nat.mul_succ, Nat.add_sub_cancel]

/-- Settles O45: byte by byte from the lowest. -/
theorem packetDataByteOrder : Obligations.PacketDataByteOrder := by
  intro p i h
  rw [pktData]
  match i, h with
  | 0, _ => rw [extract_byte_zero]
  | 1, _ => rw [extract_byte_succ, extract_byte_zero]
  | 2, _ => simp only [extract_byte_succ, extract_byte_zero]
  | 3, _ => simp only [extract_byte_succ, extract_byte_zero]
  | 4, _ => simp only [extract_byte_succ, extract_byte_zero]
  | 5, _ => simp only [extract_byte_succ, extract_byte_zero]
  | 6, _ => simp only [extract_byte_succ, extract_byte_zero]
  | 7, _ =>
    simp only [extract_byte_succ]
    exact BitVec.extractLsb'_eq_self

end Sys2Proof.Machine
end

section
/-! PROOFS. PK_FRAME's packet sequence packet by packet, runs of several commands, and the statements of
43_packet.md R150 and 30_encoding.md R78. -/

namespace Sys2Proof.Machine

/-! ### The packet sequence (43_packet.md R146 to R150) -/

theorem framePayloads_length (bytes : List Byte) :
    (framePayloads bytes).length = 1 + padlen bytes.length / 5 := by
  rw [framePayloads, List.length_cons, dataPayloads_length, padded_length, Nat.add_comm]

/-- The last packet of the sequence is that of its last payload, which PK_FRAME leaves in PBUF. -/
theorem framePayloads_getLast (bytes : List Byte) (p : Payload) :
    ((framePayloads bytes).map packetOf).getLast? = some (packetOf ((framePayloads bytes).getLastD p)) := by
  rw [framePayloads, List.getLast?_map, List.getLast?_cons, Option.map_some, List.getLastD_cons,
    List.getLastD_eq_getLast?]

/-- The packet of a data payload, byte by byte; its constant bytes sum to 0x63 (43_packet.md R147). -/
theorem packetOf_dataPayload (c0 c1 c2 c3 c4 : Byte) : packetOf (dataPayload c0 c1 c2 c3 c4) =
    #v[0x40, 0x23, c0, c1, c2, c3, c4, 0x63 + c0 + c1 + c2 + c3 + c4] := by
  have hsum : checksum (dataPayload c0 c1 c2 c3 c4) = 0x63 + c0 + c1 + c2 + c3 + c4 := by
    have hconst : (0x63 : Byte) = 0x40 + 0x23 := by decide
    rw [checksum, sumBytes_eq_sum, dataPayload, hconst]
    simp only [Vector.toList_mk, List.sum_cons, List.sum_nil]
    ring
  rw [← hsum]
  rfl

/-- The padded bytes that PK_FRAME reads are those of `sentByte` (43_packet.md R148; 10_state.md
R28). -/
theorem padded_readBlock (s : State) {a : Nat}
    (h : a < (padded (s.readBlock 0 s.wbLen.val).1).length) :
    (padded (s.readBlock 0 s.wbLen.val).1)[a]? = some (s.sentByte a) := by
  rw [padded_length, State.readBlock_length] at h
  rw [padded_getElem, State.readBlock_length, if_pos h, State.sentByte]
  split
  · next hwire => rw [State.readBlock_getElem _ _ _ _ hwire, Nat.zero_add, unwrittenBelow_eq]
  · rfl

/-- Packet k + 1 holds bytes 5k to 5k + 4 of the padded buffer. -/
theorem framePayloads_data (s : State) {k : Nat} (hk : k < padlen s.wbLen.val / 5) :
    (framePayloads (s.readBlock 0 s.wbLen.val).1)[k + 1]? =
      some (dataPayload (s.sentByte (5 * k)) (s.sentByte (5 * k + 1)) (s.sentByte (5 * k + 2))
        (s.sentByte (5 * k + 3)) (s.sentByte (5 * k + 4))) := by
  rw [framePayloads, List.getElem?_cons_succ]
  refine dataPayloads_getElem _ s.sentByte (fun a => padded_readBlock s) k ?_
  rwa [padded_length, State.readBlock_length]

/-- Settles O52: the sequence's length, its initial packet with the bucket byte and the checksum, its
data packets and its last; the two errors in their order; the words of the opcode. That the packets are
taken at once is log entry 7. -/
theorem pkFrameEmitsPacketSequence : Obligations.PkFrameEmitsPacketSequence := by
  refine ⟨fun s P hP hpos hlt hcnt => ?emitted, fun s P hP hbad => ?badSize,
    fun s P hP hpos hlt hcnt => ?pushed, fun x s => step_issue_of_decode (decode_pkFrame x) s⟩
  case badSize =>
    subst hP
    refine exec_pkFrame_of_badSize ?_
    rw [sizeOk_iff, padlen_eq]
    omega
  case pushed =>
    subst hP
    exact exec_pkFrame_of_pushed ((sizeOk_iff _).2 ⟨hpos, hlt⟩) hcnt
  case emitted =>
    rw [← padlen_eq] at hP
    subst hP
    refine ⟨_, _, _, _, exec_pkFrame_eq ((sizeOk_iff _).2 ⟨hpos, hlt⟩) hcnt, rfl, ?length,
      mag_byte_toNat hpos hlt, checksum_initPayload_toNat _, ?initial, fun k hk => ?data,
      framePayloads_getLast _ s.pbuf⟩
    case length => rw [List.length_map, framePayloads_length, State.readBlock_length]
    case initial =>
      rw [List.getElem?_map, framePayloads, List.getElem?_cons_zero, Option.map_some,
        State.readBlock_length, packetOf_initPayload]
    case data =>
      rw [List.getElem?_map, framePayloads_data s hk, Option.map_some, packetOf_dataPayload]

/-! ### Runs of several commands (30_encoding.md R78) -/

theorem execAll_cons {i : Instr} {s t : State} (h : exec i s = .next t) (is : List Instr) :
    execAll (i :: is) s = execAll is t := by
  rw [execAll, h]

theorem execAll_append {is : List Instr} {s t : State} (h : execAll is s = .next t)
    (js : List Instr) : execAll (is ++ js) s = execAll js t := by
  induction is generalizing s with
  | nil =>
    cases h
    rfl
  | cons i is ih =>
    obtain ⟨u, hu⟩ := exec_total i s
    rw [execAll_cons hu] at h
    rw [List.cons_append, execAll_cons hu, ih h]

theorem execAll_singleton (i : Instr) (s : State) : execAll [i] s = exec i s := by
  obtain ⟨t, ht⟩ := exec_total i s
  rw [execAll_cons ht, ht, execAll]

/-! ### CK_PACKET -/

/-- Pushing bytes that fit puts them behind those already pushed, ACC staying their sum. -/
theorem execAll_ckPush (bs : List Byte) {s : State} (hsum : AccumulatorOk s)
    (hfits : s.cnt.toNat + bs.length ≤ 7) : ∃ t : State, execAll (bs.map .ckPush) s = .next t ∧
      t = { s with acc := t.acc, cnt := t.cnt, pbuf := t.pbuf } ∧ AccumulatorOk t ∧
      t.cnt.toNat = s.cnt.toNat + bs.length ∧
      t.pbuf.toList.take t.cnt.toNat = s.pbuf.toList.take s.cnt.toNat ++ bs := by
  induction bs generalizing s with
  | nil => exact ⟨s, rfl, rfl, hsum, rfl, (List.append_nil _).symm⟩
  | cons b bs ih =>
    rw [List.length_cons] at hfits
    have hroom : s.cnt ≠ 7 := by
      intro hfull
      have hseven : s.cnt.toNat = 7 := by rw [hfull]; rfl
      omega
    have hpush := exec_ckPush_of_room b hroom
    have hcount := count_succ_toNat hroom
    obtain ⟨t, hrest, hframe, hsum', hcnt, htaken⟩ := ih
      (s := { s with
        pbuf := s.pbuf.set s.cnt.toNat b (count_indexes_payload hroom)
        acc := s.acc + b
        cnt := s.cnt + 1 })
      (hsum.exec (i := .ckPush b) rfl ⟨hroom, rfl, rfl, rfl⟩) (by rw [hcount]; omega)
    refine ⟨t, (execAll_cons hpush _).trans hrest, hframe, hsum', ?_, ?_⟩
    · rw [hcnt, hcount, List.length_cons]
      omega
    · rw [htaken, hcount, take_set_succ, List.append_assoc, List.singleton_append]

/-- Settles O53: -/
theorem ckPacketEmitsPacket : Obligations.CkPacketEmitsPacket := by
  intro p s
  refine ⟨_, rfl, ?_⟩
  obtain ⟨t, hpushed, hframe, hsum, hcnt, htaken⟩ := execAll_ckPush p.toList
    (s := { s with acc := 0, cnt := 0 }) (.of_empty rfl rfl) (by simp)
  have hfull : t.cnt = 7 := by
    apply BitVec.eq_of_toNat_eq
    rw [hcnt]
    simp
  have hpbuf : t.pbuf = p := by
    have hwhole : t.pbuf.toList.take t.cnt.toNat = t.pbuf.toList := by
      rw [hfull]
      exact List.take_of_length_le t.pbuf.length_toList.le
    exact Vector.toList_inj.1 (hwhole.symm.trans htaken)
  rw [List.cons_append, execAll_cons (exec_ckClr s), execAll_append hpushed, execAll_singleton,
    exec_ckFin_of_full hfull, hsum.acc_eq_checksum hfull, hpbuf, hframe]

/-! ### LOAD_GLYPH -/

/-- The first n commands of LOAD_GLYPH load the first n rows. -/
theorem execAll_loadGlyphRows (g : Vector Byte 8) (s : State) {n : Nat} (hn : n ≤ 8) :
    ∃ gr : Vector Byte 8,
      execAll ((List.range n).map fun r => .gld (BitVec.ofNat 3 r) (g.toList.getD r 0)) s =
        .next { s with gr := gr } ∧
      ∀ (r : Nat) (h : r < 8), gr[r] = if r < n then g[r] else s.gr[r] := by
  induction n with
  | zero => exact ⟨s.gr, rfl, fun r h => rfl⟩
  | succ n ih =>
    obtain ⟨gr, hexec, hrows⟩ := ih (Nat.le_of_succ_le hn)
    have hlt : n < 8 := hn
    have hindex : (BitVec.ofNat 3 n).toNat = n := by
      rw [BitVec.toNat_ofNat, Nat.mod_eq_of_lt hlt]
    have hrow : g.toList.getD n 0 = g[n] := by simp [hlt]
    refine ⟨gr.set n g[n], ?_, fun r h => ?_⟩
    · rw [List.range_succ, List.map_append, List.map_singleton, execAll_append hexec,
        execAll_singleton, exec_gld, hrow]
      simp only [hindex]
    · rw [Vector.getElem_set, hrows]
      rcases Nat.lt_trichotomy r n with hr | hr | hr
      · rw [if_neg hr.ne', if_pos hr, if_pos (Nat.lt_succ_of_lt hr)]
      · subst hr
        rw [if_pos rfl, if_pos (Nat.lt_succ_self r)]
      · rw [if_neg hr.ne, if_neg hr.not_gt, if_neg (by omega)]

/-- Settles O54: -/
theorem loadGlyphLoadsAllRows : Obligations.LoadGlyphLoadsAllRows := by
  intro g s
  obtain ⟨gr, hexec, hrows⟩ := execAll_loadGlyphRows g s (n := 8) le_rfl
  have hloaded : gr = g := Vector.ext fun r h => (hrows r h).trans (if_pos h)
  exact ⟨_, rfl, hloaded ▸ hexec⟩

/-! ### SEND_TWICE -/

/-- What a block reads as depends on WB and the count of draws alone. -/
theorem State.readBlock_congr {s t : State} (hwb : t.wb = s.wb) (hdraws : t.draws = s.draws)
    (a n : Nat) : (t.readBlock a n).1 = (s.readBlock a n).1 := by
  apply List.ext_getElem?
  intro k
  rcases lt_or_ge k n with hk | hk
  · rw [State.readBlock_getElem a n k t hk, State.readBlock_getElem a n k s hk, hwb, hdraws]
  · rw [List.getElem?_eq_none (by simpa using hk), List.getElem?_eq_none (by simpa using hk)]

/-- PK_FRAME draws nothing where every byte below WB_LEN has been written. -/
theorem exec_pkFrame_of_written {s : State} (hsize : sizeOk (padlen s.wbLen.val) = true)
    (hcnt : s.cnt = 0) (hwritten : ∀ a, a < s.wbLen.val → (Memory.read s.wb a).isSome = true) :
    ∃ t : State, exec .pkFrame s = .next t ∧ t = { s with
      pbuf := (framePayloads (s.readBlock 0 s.wbLen.val).1).getLastD s.pbuf
      pktOut := s.pktOut ++ (framePayloads (s.readBlock 0 s.wbLen.val).1).map packetOf
      res := BitVec.ofNat 32 (1 + padlen s.wbLen.val / 5) } := by
  refine ⟨_, exec_pkFrame_eq hsize hcnt, ?_⟩
  rw [State.unwrittenBelow_of_written hwritten]
  rfl

/-- Settles O55: the first PK_FRAME leaves WB, WB_LEN, CNT and the draws, so that the second reads and
emits the same. -/
theorem sendTwiceRepeatsPackets : Obligations.SendTwiceRepeatsPackets := by
  intro s hpos hle hcnt hwritten
  have hsize := (sizeOk_padlen_iff s.wbLen.val).2 ⟨hpos, by omega⟩
  obtain ⟨t, hfirst, ht⟩ := exec_pkFrame_of_written hsize hcnt hwritten
  have hlen : t.wbLen = s.wbLen := by rw [ht]
  have hwb : t.wb = s.wb := by rw [ht]
  have hbytes : (t.readBlock 0 s.wbLen.val).1 = (s.readBlock 0 s.wbLen.val).1 :=
    State.readBlock_congr hwb (by rw [ht]) 0 _
  obtain ⟨u, hsecond, hu⟩ := exec_pkFrame_of_written (s := t) (by rwa [hlen]) (by rw [ht]; exact hcnt)
    (by rwa [hlen, hwb])
  refine ⟨_, t, u, _, rfl, ?twice, hfirst, by rw [ht], ?state⟩
  case twice => rw [execAll_cons hfirst, execAll_singleton, hsecond]
  case state =>
    rw [hu, hlen, hbytes, ht]
    rfl

end Sys2Proof.Machine
end
